-- ==== Sys2Proof/Word.lean ====
section
/-! DEFINITION. The widths of the block's values: command words (spec R50), buffer bytes (R13), symbols (R14). -/

namespace Sys2Proof

/-- A word of the command stream: a 32-bit value, not a sequence of bytes (R50). -/
abbrev Word := BitVec 32

/-- A byte of the encoding buffer, a channel value, a brightness (R12, R13, R56). -/
abbrev Byte := BitVec 8

/-- A symbol: one 16-bit entry of the table `SYM` (R14). -/
abbrev Symbol := BitVec 16

/-- A frame: the bytes handed to the transmitter by one `TxStart`, `f[0]` first (R143). -/
abbrev Frame := List Byte

end Sys2Proof
end

