-- ==== Sys2Proof/Syntax.lean ====
section
/-! DEFINITION. The commands of spec/opcode_table.json, one constructor each. -/

namespace Sys2Proof

/-- A pixel: an ordered triple of 8-bit channels (R52, R56). -/
structure Pixel where
  r : Byte
  g : Byte
  b : Byte
deriving DecidableEq, Repr, Inhabited

/-- The three commands (R53). -/
inductive Instr where
  /-- `INIT b` (R90): `b` the brightness. -/
  | init (b : Byte)
  /-- `SETBRT v` (R120): `v` the new brightness. -/
  | setbrt (v : Byte)
  /-- `SHOW p[0], ..., p[n-1]` (R100). -/
  | showPixels (pixels : List Pixel)
deriving DecidableEq, Repr

/-- The pseudo-instruction `BLANK` (R61): `SHOW` with no pixels. -/
def Instr.blank : Instr := .showPixels []

/-- The pseudo-instruction `INIT` without an operand (R61): `INIT 100`. -/
def Instr.initDefault : Instr := .init 100

end Sys2Proof
end

