-- ==== Sys2Proof/Config.lean ====
section
/-! DEFINITION. The parameters of spec R4: what an integrator fixes before reset (R162), and the values the spec
leaves open, as constants without a body. -/

namespace Sys2Proof

/-- `STORE_MODE` (R4, R33): what a symbol store does to the odd-offset byte of a slot. -/
inductive StoreMode where
  | full16
  | low8
deriving DecidableEq, Repr, Inhabited

/-- The two levels of description the spec gives a fill (R8, R112): one atomic command, or one slot a step.
DESIGN CHOICE (log 1): which of the two a machine runs is a parameter of the model. -/
inductive Level where
  | command
  | slot
deriving DecidableEq, Repr, Inhabited

/-- The configuration of one block (R4): `N`, `SYM`, `STORE_MODE` with its default, and the model's own level of
description with the spec's normative level as its default. Nothing writes it (R10, R28). -/
structure Config where
  /-- `N`, the LED count; the register `LEDCNT` reads it (R11). -/
  ledCount : Nat
  sym0 : Symbol
  sym1 : Symbol
  sym2 : Symbol
  sym3 : Symbol
  storeMode : StoreMode := .full16
  level : Level := .command
deriving DecidableEq, Repr

/-- `CHANNELS` (R4). -/
def Config.channels : Nat := 3
/-- `GROUPS_PER_CHANNEL` (R4). -/
def Config.groupsPerChannel : Nat := 4
/-- `SLOTS_PER_LED` (R4). -/
def Config.slotsPerLed : Nat := 12
/-- `SYMBOL_BYTES` (R4). -/
def Config.symbolBytes : Nat := 2
/-- `BYTES_PER_LED` (R4). -/
def Config.bytesPerLed : Nat := 24
/-- `BRT_DEFAULT` (R4). -/
def Config.brtDefault : Byte := 100
/-- `BRT_MAX` (R4). -/
def Config.brtMax : Nat := 100

/-- `N - 1` of the block as built: OPEN in the spec (R4, D2), between 0 and 65534, otherwise free (log 2). -/
opaque Config.ledCountLessOne : Fin 65535

/-- `SYM[0..3]` of the block as built: OPEN in the spec (R4, D6), no property assumed (log 2). -/
opaque Config.symbol : Fin 4 → Symbol

/-- `STORE_MODE` of the block as built: an argument (R4, D8), free here (log 2). -/
opaque Config.storeModeBuilt : StoreMode

/-- What a byte of `BUF` that nothing has written since the `n`-th `Reset` would carry in a frame (R26, U8): a free
value for each reset and offset (log 4). Nothing reads it in a state that a run reaches. -/
opaque Config.unwrittenByte : Nat → Nat → Byte

/-- The configuration of the block as built: the free parameters, at the spec's normative level of description. -/
def Config.asBuilt : Config where
  ledCount := Config.ledCountLessOne.val + 1
  sym0 := Config.symbol 0
  sym1 := Config.symbol 1
  sym2 := Config.symbol 2
  sym3 := Config.symbol 3
  storeMode := Config.storeModeBuilt
  level := .command

end Sys2Proof
end

