-- ==== Sys2Proof/WellFormed.lean ====
section
/-! DEFINITION. Which commands can be encoded, and which configurations are admitted. -/

namespace Sys2Proof

/-- A command is well formed when its operands fit their fields: the pixel count of a `SHOW` fits 16 bits (R55, R56);
the 8-bit operands fit by their type. -/
def Instr.wf : Instr → Bool
  | .init _ => true
  | .setbrt _ => true
  | .showPixels ps => decide (ps.length ≤ 65535)

/-- A configuration is admitted when `1 <= N <= 65535` (R4; the four symbols are there by the type). -/
def Config.wf (c : Config) : Bool := decide (1 ≤ c.ledCount) && decide (c.ledCount ≤ 65535)

end Sys2Proof
end

