-- ==== Sys2Proof/Decode.lean ====
section
/-! DEFINITION. The decoder of spec R58, total on sequences of words, and the encoder written from the same tables
(R51, R52, R54). -/

namespace Sys2Proof

/-! Fields of a command word (format C, R51) and of a pixel operand word (format P, R52). -/

/-- `w[31:24]`: the opcode of a command word, the top byte `pz` of a pixel word. -/
def opField (w : Word) : BitVec 8 := w.extractLsb' 24 8

/-- `w[23:16]`: `z` of a command word, red of a pixel word. -/
def zField (w : Word) : BitVec 8 := w.extractLsb' 16 8

/-- `w[15:8]`: `hi` of a command word, green of a pixel word. -/
def hiField (w : Word) : BitVec 8 := w.extractLsb' 8 8

/-- `w[7:0]`: the operand of `INIT` and `SETBRT`, blue of a pixel word. -/
def loField (w : Word) : BitVec 8 := w.extractLsb' 0 8

/-- `w[15:0]`: the pixel count of a `SHOW`. -/
def countField (w : Word) : Nat := (w.extractLsb' 0 16).toNat

/-- A pixel operand word is legal when its top byte is zero (R52, R57). -/
def pixelWordLegal (w : Word) : Bool := opField w == 0

/-- The pixel of a format P word (R52): `(r, g, b) = (w[23:16], w[15:8], w[7:0])`. -/
def pixelOfWord (w : Word) : Pixel := { r := zField w, g := hiField w, b := loField w }

/-- Why words are no command (R57): the three ways a sequence is illegal. -/
inductive Reject where
  | undefinedOpcode
  | reservedNotZero
  | pixelTopByteNotZero
deriving DecidableEq, Repr

/-- The decoder's answer on the words taken so far: a command with the words after it; an illegal command, by name,
with the words after it; or a command whose words have not all been presented (R55, R166). -/
inductive Decoded where
  | instr (i : Instr) (rest : List Word)
  | illegal (why : Reject) (rest : List Word)
  | incomplete
deriving DecidableEq, Repr

/-- The operand words of a `SHOW` of `n` pixels, cut from the words `q` after its command word (R58). -/
def decodePixels (n : Nat) (q : List Word) : Decoded :=
  if q.length < n then .incomplete
  else if (q.take n).all pixelWordLegal then .instr (.showPixels ((q.take n).map pixelOfWord)) (q.drop n)
  else .illegal .pixelTopByteNotZero (q.drop n)

/-- The decoder (R58). It reads no state of the block. -/
def decode : List Word → Decoded
  | [] => .incomplete
  | w :: q =>
    if opField w = 0x01 then
      if zField w = 0 ∧ hiField w = 0 then .instr (.init (loField w)) q else .illegal .reservedNotZero q
    else if opField w = 0x02 then
      if zField w = 0 ∧ hiField w = 0 then .instr (.setbrt (loField w)) q else .illegal .reservedNotZero q
    else if opField w = 0x03 then
      if zField w = 0 then decodePixels (countField w) q else .illegal .reservedNotZero q
    else .illegal .undefinedOpcode q

/-- The length in words of the command that begins with the word `w`, told from that word alone (R55). -/
def commandLength (w : Word) : Nat :=
  if opField w = 0x03 ∧ zField w = 0 then 1 + countField w else 1

/-! The encoder: the words of a command (R54). -/

/-- The pixel operand word `{0x00, r, g, b}` (R52). -/
def encodePixelWord (p : Pixel) : Word :=
  BitVec.ofNat 32 (p.r.toNat * 65536 + p.g.toNat * 256 + p.b.toNat)

/-- The words of a command (R54): `0x01000000 + b`, `0x02000000 + v`, or `0x03000000 + n` and `n` pixel words. -/
def encode : Instr → List Word
  | .init b => [BitVec.ofNat 32 (0x01000000 + b.toNat)]
  | .setbrt v => [BitVec.ofNat 32 (0x02000000 + v.toNat)]
  | .showPixels ps => BitVec.ofNat 32 (0x03000000 + ps.length) :: ps.map encodePixelWord

/-! The opcode table's words. -/

/-- The words of the command whose bits are `w`, `nbits` of them given and the rest zero: bit 0 is the least
significant bit of the first word, and a later word's bits count on from there (log 18). -/
def tableWords (nbits w : Nat) : List Word :=
  let v := w % 2 ^ nbits
  let first : Word := BitVec.ofNat 32 v
  first :: (List.range (commandLength first - 1)).map (fun j => BitVec.ofNat 32 (v >>> (32 * (j + 1))))

/-- The command the decoder reads from the table's bits. -/
def decodeTableWord (nbits w : Nat) : Option Instr :=
  match decode (tableWords nbits w) with
  | .instr i _ => some i
  | .illegal _ _ => none
  | .incomplete => none

end Sys2Proof
end

