-- ==== Sys2Proof/Machine/State.lean ====
section
/-! DEFINITION. The state of the block as plain data: everything 10_state.md gives it, the ports of R9, and the
moves the outside world has still to make. -/

namespace Sys2Proof.Machine

/-- The encoding buffer (R13, R30) as (offset, byte) pairs, offsets strictly rising. An offset that is not listed has
no value: nothing has written it since the last reset (R26). -/
abbrev Memory := List Host.Cell

/-- The canonical form of a memory: strictly rising offsets. (An unlisted offset has no value, so no listed byte equals
what an unlisted offset reads as.) -/
abbrev Memory.wf (m : Memory) : Prop := m.Pairwise (fun x y => x.1 < y.1)

/-- `PHASE`, the phase of the fill controller (R15). -/
inductive Phase where
  | uninit
  | idle
  | enc
  | off
  | tx
deriving DecidableEq, Repr

/-- The four fault causes of the spec (R131). A fault of the spec ends a COMMAND, not the machine: it is a next state. -/
inductive FaultCause where
  | illegalCommand
  | notInitialized
  | invalidArgument
  | brightnessRange
deriving DecidableEq, Repr

/-- `Resp(c)` (R9, R131): success or one of the four causes, and nothing else (U12). -/
inductive Response where
  | success
  | failed (c : FaultCause)
deriving DecidableEq, Repr

/-- What the encoder emits (R9). -/
inductive Output where
  | resp (r : Response)
  | txStart (f : Frame)
deriving DecidableEq, Repr

/-- A move of the outside world (R8, R9), or `quiet`: no move of the outside world, the encoder steps (log 8). -/
inductive Arrival where
  | reset
  | word (w : Word)
  | txDone
  | quiet
deriving DecidableEq, Repr

/-- Why the MACHINE stops. Both cases are in states that no run reaches. -/
inductive Fault where
  /-- Raised by an `ENC` or `OFF` step outside the precondition R107 and R108 give it. Safe: it stops (log 14). -/
  | controllerPrecondition
  /-- Raised by an `ENC` step that would scale with `BL > 100`, where `Scale` has no value (R81). Safe: it stops (log 14). -/
  | scaleOutOfDomain
deriving DecidableEq, Repr

/-- Why the model gives no meaning. -/
inductive Refusal where
  /-- Raised by an arm of `exec` whose instruction has no meaning yet (there is none such). Safe: it stops. -/
  | notModelled (mnemonic : String)
deriving DecidableEq, Repr

/-- The state of the block (10_state.md R10 to R19), its ports (R9), and the model's own fields (`arrivals`, `resets`). -/
structure State where
  /-- `LEDCNT`, `SYM`, `STORE_MODE` (R11, R14): hardwired, never written (R10). -/
  cfg : Config
  /-- `BRT` (R12). -/
  brt : Byte
  /-- `BUF` (R13). -/
  buf : Memory
  /-- `PHASE` (R15). -/
  phase : Phase
  /-- `ERR` (R16). -/
  err : BitVec 4
  /-- `WP` (R17): the offset of the next slot. -/
  wp : Nat
  /-- `I` (R18): the pixel being encoded. -/
  i : Nat
  /-- `K` (R18): the slot within the LED. -/
  k : Nat
  /-- `SC` (R19): the three scaled channels, green first. -/
  sc : BitVec 24
  /-- `BL` (R19): the brightness of the fill. -/
  bl : Byte
  /-- `NPIX` (R19): the pixel count of the fill. -/
  npix : Nat
  /-- `PQ` (R19): the pixels of the fill. -/
  pq : List Pixel
  /-- The words of an incomplete `SHOW` that the block has taken (R166). -/
  rx : List Word
  /-- The words presented on `cmd` and not yet taken, oldest first (R9, R165). -/
  cmdPort : List Word
  /-- The moves of the host and the transmitter still to come, in time order (log 8). -/
  arrivals : List Arrival
  /-- The events emitted on `resp` and `tx`, oldest first (R9). -/
  outputs : List Output
  /-- How many `Reset` events have been taken: the index of the free values of an unwritten buffer (log 4). -/
  resets : Nat
deriving DecidableEq, Repr

/-- The state right after power-up of a block of configuration `c` (R26; power-up is a reset, R160). The working
latches, which R26 leaves unspecified, are at the values log 5 names. -/
def State.resetWith (c : Config) : State where
  cfg := c
  brt := 100
  buf := []
  phase := .uninit
  err := 0
  wp := 0
  i := 0
  k := 0
  sc := 0
  bl := 0
  npix := 0
  pq := []
  rx := []
  cmdPort := []
  arrivals := []
  outputs := []
  resets := 0

/-- The machine right after reset (R26), with the configuration as built. -/
def State.reset : State := State.resetWith Config.asBuilt

/-- Instantiating the model (R4): a configuration with `N` outside 1 to 65535 is refused, and that is no run-time
fault. -/
def State.instantiate (c : Config) : Option State :=
  if c.wf then some (State.resetWith c) else none

end Sys2Proof.Machine
end

