-- ==== Sys2Proof/Machine/Operands.lean ====
section
/-! DEFINITION. The operand forms: every operand is an immediate (R56). A brightness as a value `Scale` may take, the
parameters a command checks its operands against, and the addresses of slots. -/

namespace Sys2Proof.Machine

/-- A brightness in the domain of `Scale`, 0 to 100 (R70). -/
abbrev Brightness := Fin 101

/-- The brightness an 8-bit value stands for, if it is one `Scale` is defined for (R12, R81, R135). -/
def usableBrightness (v : Byte) : Option Brightness :=
  if h : v.toNat < 101 then some ⟨v.toNat, h⟩ else none

/-- `BUF_LEN` (R4): the buffer's length in bytes. -/
def bufLen (c : Config) : Nat := 24 * c.ledCount

/-- The number of slots of a buffer: twelve per LED (R31). -/
def slotCount (c : Config) : Nat := 12 * c.ledCount

/-- `A(i, k) = 24*i + 2*k`: where slot `k` of LED `i` starts (R31, R34). -/
def slotAddr (i k : Nat) : Nat := 24 * i + 2 * k

end Sys2Proof.Machine
end

