-- ==== Sys2Proof/Machine/Datapath.lean ====
section
/-! DEFINITION. The datapath of 40_datapath.md: pure functions of their arguments and the configuration. -/

namespace Sys2Proof.Machine

/-- `Scale(c, b) = floor((c * b) / 100)` (R70): the product in full, then the quotient. The type of `b` is the domain
(R81): there is no value for a brightness above 100. -/
def scale (c : Byte) (b : Brightness) : Byte := BitVec.ofNat 8 (c.toNat * b.val / 100)

/-- `Group(s, j) = s[7 - 2*j : 6 - 2*j]` (R72). -/
def group (s : Byte) (j : Fin 4) : BitVec 2 := s.extractLsb' (6 - 2 * j.val) 2

/-- `Lookup(g) = SYM[g]` (R73). -/
def lookup (c : Config) (g : BitVec 2) : Symbol :=
  match g.toNat with
  | 0 => c.sym0
  | 1 => c.sym1
  | 2 => c.sym2
  | _ => c.sym3

/-- `ScaleGRB(p, b)` (R74): the scaled channels in emission order, green in bits 23:16, red in 15:8, blue in 7:0. -/
def scaleGRB (p : Pixel) (b : Brightness) : BitVec 24 :=
  BitVec.ofNat 24 ((scale p.g b).toNat * 65536 + (scale p.r b).toNat * 256 + (scale p.b b).toNat)

/-- The group of slot `k` in a scaled word: bits `23 - 2*k : 22 - 2*k` (R74, R107 stage S2). -/
def slotOfScaled (sc : BitVec 24) (k : Nat) : BitVec 2 := sc.extractLsb' (22 - 2 * k) 2

/-- `SlotGroup(p, b, k)` (R74). -/
def slotGroup (p : Pixel) (b : Brightness) (k : Nat) : BitVec 2 := slotOfScaled (scaleGRB p b) k

/-- `EncodePixel(p, b)` (R75): the twelve symbols of one LED, slot 0 first. -/
def encodePixel (c : Config) (p : Pixel) (b : Brightness) : List Symbol :=
  (List.range 12).map (fun k => lookup c (slotGroup p b k))

/-- The off symbol `SYM[0]` (R76). -/
def offSymbol (c : Config) : Symbol := c.sym0

/-- `OffLed` (R76): twelve off symbols. -/
def offLed (c : Config) : List Symbol := List.replicate 12 (offSymbol c)

end Sys2Proof.Machine
end

