-- ==== Sys2Proof/Machine/Flags.lean ====
section
/-! DEFINITION. The only flags of the block (R20): the sticky bits of `ERR`, and the status levels, which are functions
of the state; the control and status registers of R21. -/

namespace Sys2Proof.Machine

/-- The code of a fault cause (R131). -/
def FaultCause.code : FaultCause → Nat
  | .illegalCommand => 1
  | .notInitialized => 2
  | .invalidArgument => 3
  | .brightnessRange => 4

/-- The code `c` of `Resp(c)` (R131): 0 for success. -/
def Response.code : Response → Nat
  | .success => 0
  | .failed c => c.code

/-- The `ERR` bit of a fault cause: bit `code - 1` (R16, R131). -/
def errBit (c : FaultCause) : BitVec 4 := BitVec.twoPow 4 (c.code - 1)

/-- `ERR` with the bit of cause `c` set (R136). -/
def setErr (e : BitVec 4) (c : FaultCause) : BitVec 4 := e ||| errBit c

/-- The code of a phase (R15). -/
def Phase.code : Phase → BitVec 3
  | .uninit => 0
  | .idle => 1
  | .enc => 2
  | .off => 3
  | .tx => 4

/-- The level `busy` (R20) as a function of the phase. -/
def Phase.busy : Phase → Bool
  | .uninit => false
  | .idle => false
  | .enc => true
  | .off => true
  | .tx => true

/-- The level `busy` (R20). -/
def State.busy (s : State) : Bool := s.phase.busy

/-- The level `tx_active` (R20, R147). -/
def State.txActive (s : State) : Bool := decide (s.phase = .tx)

/-- The level `fault` (R20). -/
def State.faultLevel (s : State) : Bool := decide (s.err ≠ 0)

/-- The register `STATUS` (R21): `[2:0]` phase, `[3]` busy, `[4]` tx_active, `[5]` fault. -/
def State.status (s : State) : BitVec 6 :=
  BitVec.ofBool s.faultLevel ++ BitVec.ofBool s.txActive ++ BitVec.ofBool s.busy ++ s.phase.code

/-- The control and status registers (R21); their numbers are for reference, no command names one (D28). -/
inductive ControlRegister where
  | ledcnt
  | brt
  | status
  | err
deriving DecidableEq, Repr

/-- The reference number of a control and status register (R21). -/
def ControlRegister.number : ControlRegister → Nat
  | .ledcnt => 0
  | .brt => 1
  | .status => 2
  | .err => 3

/-- What a control and status register holds (R21), zero-extended to 16 bits. -/
def State.controlRegister (s : State) : ControlRegister → BitVec 16
  | .ledcnt => BitVec.ofNat 16 s.cfg.ledCount
  | .brt => s.brt.zeroExtend 16
  | .status => s.status.zeroExtend 16
  | .err => s.err.zeroExtend 16

/-- The four levels of the `status` port together (R9, R20). -/
structure StatusLevels where
  phase : Phase
  busy : Bool
  txActive : Bool
  fault : Bool
deriving DecidableEq, Repr

/-- What an outside observer can see (R9): the events emitted so far and the status levels. -/
def State.observe (s : State) : List Output × StatusLevels :=
  (s.outputs, { phase := s.phase, busy := s.busy, txActive := s.txActive, fault := s.faultLevel })

end Sys2Proof.Machine
end

