-- ==== Sys2Proof/Machine/Ops.lean ====
section
/-! DEFINITION. The named operations over the buffer and the state: byte reads and writes, the symbol store and the
clear, the fill, the hand-over to the transmitter, raising a fault, the `Reset` and `TxDone` events. -/

namespace Sys2Proof.Machine

/-! Bytes of the buffer. -/

/-- The byte at offset `a`, if one has been written (R7 `BUF[a]`, R26). -/
def Memory.read : Memory → Nat → Option Byte
  | [], _ => none
  | (x, b) :: m, a => if x = a then some b else Memory.read m a

/-- `BUF[a] <- v` (R7), keeping the offsets rising. -/
def Memory.write : Memory → Nat → Byte → Memory
  | [], a, v => [(a, v)]
  | (x, b) :: m, a, v =>
    if a < x then (a, v) :: (x, b) :: m
    else if a = x then (a, v) :: m
    else (x, b) :: Memory.write m a v

/-- `MemRead(a, n)` (R7): `n` bytes from offset `a` as one value, `BUF[a]` least significant; none when one of them has
no value. -/
def memRead (m : Memory) (a : Nat) : Nat → Option Nat
  | 0 => some 0
  | n + 1 =>
    match m.read a, memRead m (a + 1) n with
    | some b, some v => some (b.toNat + 256 * v)
    | _, _ => none

/-- `MemWrite(a, n, v)` (R7): the `n` low bytes of `v`, the lowest at offset `a`. -/
def memWrite (m : Memory) (a : Nat) : Nat → Nat → Memory
  | 0, _ => m
  | n + 1, v => memWrite (m.write a (BitVec.ofNat 8 v)) (a + 1) n (v / 256)

/-- The low byte `s[7:0]` of a symbol (R6). -/
def lowByte (s : Symbol) : Byte := s.extractLsb' 0 8

/-- The high byte `s[15:8]` of a symbol (R6). -/
def highByte (s : Symbol) : Byte := s.extractLsb' 8 8

/-- `SymStore(a, s)` (R33): both bytes under `FULL16`, the low byte alone under `LOW8`. -/
def symStore (c : Config) (m : Memory) (a : Nat) (s : Symbol) : Memory :=
  match c.storeMode with
  | .full16 => (m.write a (lowByte s)).write (a + 1) (highByte s)
  | .low8 => m.write a (lowByte s)

/-- Writes 0x00 to the `n` bytes from offset `a` on, in ascending order. -/
def clearBytes (m : Memory) (a : Nat) : Nat → Memory
  | 0 => m
  | n + 1 => clearBytes (m.write a 0) (a + 1) n

/-- `BufClear()` (R35): 0x00 to every byte of the buffer. -/
def bufClear (c : Config) (m : Memory) : Memory := clearBytes m 0 (bufLen c)

/-! The fill (R102). -/

/-- Stores the symbols of a list in successive slots, the first at offset `a` (R31: stride 2). -/
def storeSlots (c : Config) (m : Memory) (a : Nat) : List Symbol → Memory
  | [] => m
  | s :: ss => storeSlots c (symStore c m a s) (a + 2) ss

/-- The lit pixels of a fill (R102, first loop), the first of the list at LED `i`. -/
def fillLit (c : Config) (b : Brightness) (m : Memory) (i : Nat) : List Pixel → Memory
  | [] => m
  | p :: ps => fillLit c b (storeSlots c m (slotAddr i 0) (encodePixel c p b)) (i + 1) ps

/-- The remainder of a fill (R102, second loop): the off symbol in `n` slots from offset `a` on. -/
def fillOff (c : Config) (m : Memory) (a : Nat) : Nat → Memory
  | 0 => m
  | n + 1 => fillOff c (symStore c m a (offSymbol c)) (a + 2) n

/-- `Fill(pixels, b)` (R102). -/
def fill (c : Config) (b : Brightness) (ps : List Pixel) (m : Memory) : Memory :=
  fillOff c (fillLit c b m 0 ps) (slotAddr ps.length 0) (12 * (c.ledCount - ps.length))

/-! Operations over the state. -/

/-- `emit` (R7, R9): an event on an output port. -/
def State.emit (s : State) (o : Output) : State := { s with outputs := s.outputs ++ [o] }

/-- The content of the buffer as it is handed over (R37, R143): byte `a` of the frame is `BUF[a]`, all offsets in
ascending order. A byte nothing has written, which no run hands over, is a free value (R26, U8; log 4). -/
def State.frame (s : State) : Frame :=
  (List.range (bufLen s.cfg)).map (fun a => (s.buf.read a).getD (Config.unwrittenByte s.resets a))

/-- The hand-over (R100, R143): `TxStart` with the whole buffer, and `PHASE <- TX`. -/
def handOver (s : State) : State := { s.emit (.txStart s.frame) with phase := .tx }

/-- `raise <Fault c>` (R136): the command's fault entry, the same for every cause: the cause's `ERR` bit, `Resp(c)`,
and nothing else. There is no return from it (R137): the block is ready for the next command. -/
def raiseFault (c : FaultCause) (s : State) : State :=
  { s with err := setErr s.err c }.emit (.resp (.failed c))

/-- `emit Resp(0)` (R131): a command has finished. -/
def respondOk (s : State) : State := s.emit (.resp .success)

/-- The `Reset` event (R160): every state element at its reset value (R26), whatever the phase; no response, no frame;
a command in progress and the words of an incomplete `SHOW` are forgotten. The configuration, the words the block has
not taken and the record of past events are not the block's to change.

DEDUCED, the spec's own inference (92_eei_decisions.md, "Forms nothing in the source shows"; log 22): a `Reset` during a command, as
R160 says. -/
def takeReset (s : State) : State :=
  { State.resetWith s.cfg with
    cmdPort := s.cmdPort
    arrivals := s.arrivals
    outputs := s.outputs
    resets := s.resets + 1 }

/-- The `TxDone` event (R110, R145): in `TX` it ends the wait and the command; in any other phase it is ignored.

DEDUCED, the spec's own inference (92_eei_decisions.md, "Forms nothing in the source shows"; log 22): a stray `TxDone` is ignored, as
R145 says. -/
def takeTxDone (s : State) : State :=
  match s.phase with
  | .tx => respondOk { s with phase := .idle }
  | .uninit => s
  | .idle => s
  | .enc => s
  | .off => s

end Sys2Proof.Machine
end

