-- ==== Sys2Proof/Machine/Controller.lean ====
section
/-! DEFINITION. The fill controller of 42_show.md: its start step (R109), its `ENC` and `OFF` steps (R107, R108), the
whole fill as one change of state (R100, R102), and which of the two a `SHOW` or `INIT` runs (R8, R112). -/

namespace Sys2Proof.Machine

/-- The start step (R109), for the pixels `ps`. -/
def startFill (ps : List Pixel) (s : State) : State :=
  { s with
    npix := ps.length
    pq := ps
    bl := s.brt
    wp := 0
    i := 0
    k := 0
    phase := if ps = [] then .off else .enc }

/-- The value of `SC` after a fill of the pixels `ps` (R107: written once per pixel): the last pixel's scaled word, the
old value when there is no pixel. -/
def scaledAfter (b : Brightness) (ps : List Pixel) (old : BitVec 24) : BitVec 24 :=
  match ps.getLast? with
  | some p => scaleGRB p b
  | none => old

/-- The whole of a started fill as one change of state (R100 from its `Fill` on): the stores of `Fill`, the latches as
the controller's steps leave them, the hand-over. DEDUCED from R112 (log 15). -/
def runFill (b : Brightness) (ps : List Pixel) (s : State) : State :=
  handOver
    { s with
      buf := fill s.cfg b ps s.buf
      wp := bufLen s.cfg
      i := ps.length
      k := 0
      sc := scaledAfter b ps s.sc }

/-- The body of `SHOW` from its fill on (R100, R109), at the configured level of description. -/
def showBody (b : Brightness) (ps : List Pixel) (s : State) : State :=
  match s.cfg.level with
  | .command => runFill b ps (startFill ps s)
  | .slot => startFill ps s

/-- The precondition of an `ENC` step (R107), with `NPIX` the length of `PQ` and no more than `N` (R19, R134). -/
def encReady (s : State) : Bool :=
  decide (s.i < s.npix) && decide (s.k ≤ 11) && decide (s.wp = slotAddr s.i s.k)
    && decide (s.npix = s.pq.length) && decide (s.npix ≤ s.cfg.ledCount)

/-- The precondition of an `OFF` step (R108). -/
def offReady (s : State) : Bool :=
  decide (s.wp % 2 = 0) && decide (24 * s.npix ≤ s.wp) && decide (s.wp + 2 ≤ bufLen s.cfg)

/-- Stage S1 of an `ENC` step (R107): `SC`, computed anew when `K = 0`; none when it would scale outside the domain. -/
def encScaled (s : State) : Option (BitVec 24) :=
  if s.k = 0 then
    match s.pq[s.i]?, usableBrightness s.bl with
    | some p, some b => some (scaleGRB p b)
    | _, _ => none
  else some s.sc

/-- The store of a step and the advance of the write pointer (R107 stages S3 and S4, R108). -/
def storeAtWp (sym : Symbol) (s : State) : State :=
  { s with buf := symStore s.cfg s.buf s.wp sym, wp := s.wp + 2 }

/-- The advance of `K` and `I` after the store of an `ENC` step, and the phase after it (R107). -/
def encAdvance (s : State) : State :=
  if s.k < 11 then { s with k := s.k + 1 }
  else if s.i + 1 = s.npix then
    if s.npix < s.cfg.ledCount then { s with k := 0, i := s.i + 1, phase := .off }
    else handOver { s with k := 0, i := s.i + 1 }
  else { s with k := 0, i := s.i + 1 }

/-- An `ENC` step (R107): one slot of a lit pixel. -/
def encStep (s : State) : Host.Outcome State Fault Refusal :=
  if encReady s then
    match encScaled s with
    | some sc => .next (encAdvance (storeAtWp (lookup s.cfg (slotOfScaled sc s.k)) { s with sc := sc }))
    | none => .fault .scaleOutOfDomain
  else .fault .controllerPrecondition

/-- The phase after the store of an `OFF` step (R108). -/
def offAdvance (s : State) : State :=
  if s.wp = bufLen s.cfg then handOver s else s

/-- An `OFF` step (R108): one slot of an unlit LED. -/
def offStep (s : State) : Host.Outcome State Fault Refusal :=
  if offReady s then .next (offAdvance (storeAtWp (offSymbol s.cfg) s))
  else .fault .controllerPrecondition

end Sys2Proof.Machine
end

