-- ==== Sys2Proof/Machine/InitCommand.lean ====
section
/-! DEFINITION. The meaning of `INIT` (41_init.md). -/

namespace Sys2Proof.Machine

/-- `INIT b` (R90, R91, R92): the brightness checked before any change; then `BRT`, the clear, and the blank show from
its fill on. The same in `UNINIT` and in `IDLE`; `ERR` is not cleared. `Resp(0)` comes with `TxDone`.

DEDUCED, the spec's own inference (92_eei_decisions.md, "Forms nothing in the source shows"; log 22): an `INIT` issued a second time
does the same again, as R90 says. -/
def execInit (b : Byte) (s : State) : Host.Outcome State Fault Refusal :=
  match usableBrightness b with
  | none => .next (raiseFault .brightnessRange s)
  | some u => .next (showBody u [] { s with brt := b, buf := bufClear s.cfg s.buf })

end Sys2Proof.Machine
end

