-- ==== Sys2Proof/Machine/SetbrtCommand.lean ====
section
/-! DEFINITION. The meaning of `SETBRT` (43_setbrt.md). -/

namespace Sys2Proof.Machine

/-- `SETBRT v` (R120, R121): faults before the first `INIT`; else writes `BRT`, unchecked, and nothing else.

DEDUCED, the spec's own inference (92_eei_decisions.md, "Forms nothing in the source shows"; log 22): a value above 100 that a lower
one follows with no `SHOW` between is stored and replaced without a fault, as R120 says. -/
def execSetbrt (v : Byte) (s : State) : Host.Outcome State Fault Refusal :=
  if s.phase = .uninit then .next (raiseFault .notInitialized s)
  else .next (respondOk { s with brt := v })

end Sys2Proof.Machine
end

