-- ==== Sys2Proof/Machine/ShowCommand.lean ====
section
/-! DEFINITION. The meaning of `SHOW` (42_show.md). -/

namespace Sys2Proof.Machine

/-- `SHOW pixels` (R100): the three checks in the order of R138, each before any change; then the fill, with `BRT` read
once (R114), and the hand-over. `Resp(0)` comes with `TxDone`.

DEDUCED, the spec's own inference (92_eei_decisions.md, "Forms nothing in the source shows"; log 22): a `SHOW` with `n = 0` issued
by the host runs like any other, as R100 says. -/
def execShow (ps : List Pixel) (s : State) : Host.Outcome State Fault Refusal :=
  if s.phase = .uninit then .next (raiseFault .notInitialized s)
  else if s.cfg.ledCount < ps.length then .next (raiseFault .invalidArgument s)
  else
    match usableBrightness s.brt with
    | none => .next (raiseFault .brightnessRange s)
    | some b => .next (showBody b ps s)

end Sys2Proof.Machine
end

