-- ==== Sys2Proof/Machine/Dispatch.lean ====
section
/-! DEFINITION. One arm per command. -/

namespace Sys2Proof.Machine

def exec (i : Instr) (s : State) : Host.Outcome State Fault Refusal :=
  match i with
  | .init b => Sys2Proof.Machine.execInit b s
  | .setbrt v => Sys2Proof.Machine.execSetbrt v s
  | .showPixels ps => Sys2Proof.Machine.execShow ps s

end Sys2Proof.Machine
end

