-- ==== Sys2Proof/Machine/Fetch.lean ====
section
/-! DEFINITION. How the block takes command words and events: the command port (R50, R55, R165, R166), the moves of
the outside world (R8, R9), and the encoder's own step in each phase (R106). -/

namespace Sys2Proof.Machine

/-- The words of the command being taken (R50): those already taken, then those presented. -/
def State.stream (s : State) : List Word := s.rx ++ s.cmdPort

/-- The state with the words of a command consumed and `rest` still presented (R55, R132). -/
def consumeTo (rest : List Word) (s : State) : State := { s with rx := [], cmdPort := rest }

/-- The block takes what is presented and, if that completes a command, executes it (R55, R132, R166): a complete
command is executed, an illegal one raises `IllegalCommand`, an incomplete one is held. -/
def commandStep (s : State) : Host.Outcome State Fault Refusal :=
  match decode s.stream with
  | .instr i rest => exec i (consumeTo rest s)
  | .illegal _ rest => .next (raiseFault .illegalCommand (consumeTo rest s))
  | .incomplete => .next { s with rx := s.stream, cmdPort := [] }

/-- The encoder's step (R106): words are taken only in `UNINIT` and `IDLE` (R165); `ENC` and `OFF` write a slot; in `TX`
the encoder has no step of its own and waits (R110). -/
def encoderStep (s : State) : Host.Outcome State Fault Refusal :=
  match s.phase with
  | .uninit => commandStep s
  | .idle => commandStep s
  | .enc => encStep s
  | .off => offStep s
  | .tx => .next s

/-- A word is presented (R9): the block takes it at once when it can, and the word waits while the block is busy
(R165). -/
def takeWord (w : Word) (s : State) : Host.Outcome State Fault Refusal :=
  match s.phase with
  | .uninit => commandStep { s with cmdPort := s.cmdPort ++ [w] }
  | .idle => commandStep { s with cmdPort := s.cmdPort ++ [w] }
  | .enc => .next { s with cmdPort := s.cmdPort ++ [w] }
  | .off => .next { s with cmdPort := s.cmdPort ++ [w] }
  | .tx => .next { s with cmdPort := s.cmdPort ++ [w] }

/-- One move (R8): of the outside world where `arrivals` has one next, else of the encoder (log 8). -/
def arrive (a : Arrival) (s : State) : Host.Outcome State Fault Refusal :=
  match a with
  | .reset => .next (takeReset s)
  | .word w => takeWord w s
  | .txDone => .next (takeTxDone s)
  | .quiet => encoderStep s

/-- One step of the machine: the next entry of `arrivals`, or the encoder's own step when there is none. -/
def advance (s : State) : Host.Outcome State Fault Refusal :=
  match s.arrivals with
  | [] => encoderStep s
  | a :: as => arrive a { s with arrivals := as }

/-- The phase in which a word presented is taken: `UNINIT` and `IDLE` as they are, `IDLE` in place of a busy phase. -/
def Phase.accepting : Phase → Phase
  | .uninit => .uninit
  | .idle => .idle
  | .enc => .idle
  | .off => .idle
  | .tx => .idle

/-- The state in which the words `ws`, and no others, stand on the command port of a block that can take them, with no
other move of the outside world before them (log 9). -/
def presentWords (ws : List Word) (s : State) : State :=
  { s with phase := s.phase.accepting, rx := [], cmdPort := ws, arrivals := [] }

end Sys2Proof.Machine
end

