-- ==== Sys2Proof/Machine/Step.lean ====
section
/-! DEFINITION. One step of the machine, and the placing of a command for the next step. -/

namespace Sys2Proof.Machine

/-- One step: one move of one agent (R8). -/
def step : State → Host.Outcome State Fault Refusal := advance

/-- The state whose next step runs the command of the opcode table's bits `w`: its words stand on the command port,
where the block takes its next command (log 9). -/
def State.withFetchWord (s : State) (nbits w : Nat) : State := presentWords (tableWords nbits w) s

end Sys2Proof.Machine
end

