-- ==== Sys2Proof/Machine/Assembler.lean ====
section
/-! DEFINITION. The assembler syntax of spec R60 and R61: one line of text to the words of its command. It is outside the
machine: no step uses it. Lexical details the spec does not give are in log 20. -/

namespace Sys2Proof.Machine

/-- A line of assembler (R60, R61): operands as written, before they are checked against their fields. -/
inductive AsmLine where
  | empty
  | init (b : Option Nat)
  | setbrt (v : Nat)
  | showPixels (ps : List (Nat × Nat × Nat))
  | blank
deriving DecidableEq, Repr

/-- A number that fits 8 bits (R60). -/
def asmByte (n : Nat) : Option Byte := if n < 256 then some (BitVec.ofNat 8 n) else none

/-- A pixel whose channels fit 8 bits (R60). -/
def asmPixel (p : Nat × Nat × Nat) : Option Pixel :=
  match asmByte p.1, asmByte p.2.1, asmByte p.2.2 with
  | some r, some g, some b => some { r := r, g := g, b := b }
  | _, _, _ => none

/-- Pixels all of which fit. -/
def asmPixels : List (Nat × Nat × Nat) → Option (List Pixel)
  | [] => some []
  | p :: ps =>
    match asmPixel p, asmPixels ps with
    | some q, some qs => some (q :: qs)
    | _, _ => none

/-- The words of a line (R60, R61): none where a value does not fit its field or there are more than 65535 pixels. A
brightness of 101 to 255 and a count above `N` are not refused: those are the block's to fault. -/
def assemble : AsmLine → Option (List Word)
  | .empty => some []
  | .init none => some (encode Instr.initDefault)
  | .init (some n) => (asmByte n).map (fun b => encode (.init b))
  | .setbrt n => (asmByte n).map (fun v => encode (.setbrt v))
  | .blank => some (encode Instr.blank)
  | .showPixels ps =>
    match asmPixels ps with
    | some qs => if (Instr.showPixels qs).wf then some (encode (.showPixels qs)) else none
    | none => none

/-! From text to a line. -/

/-- A token of a line. -/
inductive AsmToken where
  | name (cs : List Char)
  | number (n : Nat)
  | openParen
  | closeParen
  | comma
deriving DecidableEq, Repr

/-- The value of a decimal digit. -/
def decDigit (c : Char) : Option Nat :=
  if '0' ≤ c ∧ c ≤ '9' then some (c.toNat - '0'.toNat) else none

/-- The value of a hexadecimal digit. -/
def hexDigit (c : Char) : Option Nat :=
  if '0' ≤ c ∧ c ≤ '9' then some (c.toNat - '0'.toNat)
  else if 'a' ≤ c ∧ c ≤ 'f' then some (c.toNat - 'a'.toNat + 10)
  else if 'A' ≤ c ∧ c ≤ 'F' then some (c.toNat - 'A'.toNat + 10)
  else none

/-- The number the digits `cs` write in base `base`. -/
def digitsValue (base : Nat) (digit : Char → Option Nat) : Nat → List Char → Option Nat
  | acc, [] => some acc
  | acc, c :: cs =>
    match digit c with
    | some d => digitsValue base digit (acc * base + d) cs
    | none => none

/-- A run of letters and digits as a token: a number, decimal or `0x` hexadecimal (R60), or a name. -/
def atomToken : List Char → Option AsmToken
  | [] => none
  | '0' :: 'x' :: c :: cs => (digitsValue 16 hexDigit 0 (c :: cs)).map .number
  | c :: cs =>
    if (decDigit c).isSome then (digitsValue 10 decDigit 0 (c :: cs)).map .number
    else some (.name (c :: cs))

/-- The tokens of a line: `run` is the run of letters and digits read so far, last character first. A `;` starts a
comment (R60). -/
def asmTokens (run : List Char) : List Char → Option (List AsmToken)
  | [] => flush run (some [])
  | c :: cs =>
    if c = ';' then flush run (some [])
    else if c = ' ' ∨ c = '\t' then flush run (asmTokens [] cs)
    else if c = '(' then flush run ((asmTokens [] cs).map (.openParen :: ·))
    else if c = ')' then flush run ((asmTokens [] cs).map (.closeParen :: ·))
    else if c = ',' then flush run ((asmTokens [] cs).map (.comma :: ·))
    else if c.isAlphanum then asmTokens (c :: run) cs
    else none
where
  /-- Puts the token of a finished run before the tokens after it. -/
  flush (run : List Char) (after : Option (List AsmToken)) : Option (List AsmToken) :=
    match run with
    | [] => after
    | _ :: _ =>
      match atomToken run.reverse, after with
      | some t, some ts => some (t :: ts)
      | _, _ => none

/-- The pixels of a `SHOW` line (R60): `(r,g,b)` separated by commas. -/
def asmPixelList : List AsmToken → Option (List (Nat × Nat × Nat))
  | [.openParen, .number r, .comma, .number g, .comma, .number b, .closeParen] => some [(r, g, b)]
  | .openParen :: .number r :: .comma :: .number g :: .comma :: .number b :: .closeParen :: .comma :: ts =>
    (asmPixelList ts).map ((r, g, b) :: ·)
  | _ => none

/-- The line some tokens write (R60, R61). -/
def asmLineOf : List AsmToken → Option AsmLine
  | [] => some .empty
  | .name m :: ts =>
    if m = ['I', 'N', 'I', 'T'] then
      match ts with
      | [] => some (.init none)
      | [.number n] => some (.init (some n))
      | _ => none
    else if m = ['S', 'E', 'T', 'B', 'R', 'T'] then
      match ts with
      | [.number n] => some (.setbrt n)
      | _ => none
    else if m = ['S', 'H', 'O', 'W'] then
      match ts with
      | [] => some (.showPixels [])
      | _ => (asmPixelList ts).map .showPixels
    else if m = ['B', 'L', 'A', 'N', 'K'] then
      match ts with
      | [] => some .blank
      | _ => none
    else none
  | _ => none

/-- The words of one line of assembler text (R60): none where the assembler refuses it. -/
def assembleText (line : List Char) : Option (List Word) :=
  match asmTokens [] line with
  | some ts =>
    match asmLineOf ts with
    | some l => assemble l
    | none => none
  | none => none

end Sys2Proof.Machine
end

