-- ==== Sys2Proof/Safety.lean ====
section
/-! DEFINITION. What claims say of states and runs: a slot that holds a symbol, the invariant of the block (R27 and the
preconditions of 42_show.md), the no-fault premise of R137, runs of the machine under any behaviour of the outside world. -/

namespace Sys2Proof.Machine

/-- The slot at offset `a` holds the symbol `sym` (R27 (d), R103): its low byte at `a`; its high byte at `a + 1` under
`FULL16`, 0x00 there under `LOW8`. -/
structure SlotHolds (c : Config) (m : Memory) (a : Nat) (sym : Symbol) : Prop where
  even : m.read a = some (lowByte sym)
  odd : m.read (a + 1) = some (if c.storeMode = .full16 then highByte sym else 0)

/-- The slot at offset `a` holds one of `SYM[0]` to `SYM[3]` (R27 (d)). -/
def SlotLegal (c : Config) (m : Memory) (a : Nat) : Prop :=
  ∃ g : BitVec 2, SlotHolds c m a (lookup c g)

/-- The symbol slot `k` of LED `i` gets in a fill of `ps` (R103): of the pixel's group when lit, off otherwise. -/
def filledSymbol (c : Config) (b : Brightness) (ps : List Pixel) (i k : Nat) : Symbol :=
  match ps[i]? with
  | some p => lookup c (slotGroup p b k)
  | none => offSymbol c

/-- What holds in every state a run reaches: R27, the extents of the working latches (R17 to R19), the preconditions of
the controller's steps (R107, R108), and the hand-over in flight
(R25 (b), R27 (c), R144). -/
structure BlockInv (s : State) : Prop where
  config : s.cfg.wf = true
  bufUnwritten : s.phase = .uninit → s.buf = []
  bufExtent : s.phase ≠ .uninit → s.buf.map Prod.fst = List.range (bufLen s.cfg)
  slotsComplete : s.phase = .idle ∨ s.phase = .tx → ∀ j, j < slotCount s.cfg → SlotLegal s.cfg s.buf (2 * j)
  slotsWritten : s.phase = .enc ∨ s.phase = .off → ∀ j, 2 * j < s.wp → SlotLegal s.cfg s.buf (2 * j)
  oddBytesClear : s.phase ≠ .uninit → s.cfg.storeMode = .low8 →
    ∀ j, j < slotCount s.cfg → s.buf.read (2 * j + 1) = some 0
  wpRange : s.wp % 2 = 0 ∧ s.wp ≤ bufLen s.cfg
  latchRange : s.k ≤ 11 ∧ s.i ≤ s.npix ∧ s.npix = s.pq.length ∧ s.npix ≤ s.cfg.ledCount
  fillBrightness : s.busy = true → s.bl = s.brt ∧ s.brt.toNat ≤ 100
  encPosition : s.phase = .enc → s.i < s.npix ∧ s.wp = slotAddr s.i s.k
  encLatch : s.phase = .enc → 0 < s.k →
    ∃ p b, s.pq[s.i]? = some p ∧ usableBrightness s.bl = some b ∧ s.sc = scaleGRB p b
  offPosition : s.phase = .off → 24 * s.npix ≤ s.wp ∧ s.wp + 2 ≤ bufLen s.cfg
  txPosition : s.phase = .tx → s.wp = bufLen s.cfg
  atomicCommands : s.cfg.level = .command → s.phase ≠ .enc ∧ s.phase ≠ .off
  wordsHeld : decode s.rx = .incomplete
  noWordsWhileBusy : s.busy = true → s.rx = []
  frameInFlight : s.phase = .tx → s.outputs.getLast? = some (.txStart s.frame)
  answeredWhenIdle : s.phase = .idle → ∃ r, s.outputs.getLast? = some (.resp r)
  frameLength : ∀ f, Output.txStart f ∈ s.outputs → f.length = bufLen s.cfg

/-- No command of the run so far has faulted: the premise R137 tells a claim to take. -/
def NoCommandFault (s : State) : Prop := s.err = 0

/-- The block of configuration `c` after reset, in a world that will make the moves of `script`. -/
def State.started (c : Config) (script : List Arrival) : State :=
  { State.resetWith c with arrivals := script }

/-- The moves the outside world makes in `script` neither reset the block nor answer its transmit. -/
def NoAnswer (script : List Arrival) : Prop :=
  ∀ a ∈ script, a ≠ .reset ∧ a ≠ .txDone

/-- The values R26 gives the state after a `Reset`, for the configuration `c`: no byte of the buffer has a value, the levels
are 0, and no transmit is in flight, so that a `TxDone` is ignored. -/
structure AtReset (c : Config) (t : State) : Prop where
  phase : t.phase = .uninit
  brt : t.brt = 100
  err : t.err = 0
  buf : ∀ a, t.buf.read a = none
  cfg : t.cfg = c
  status : t.status = 0
  noTransmit : ∀ as, t.arrivals = .txDone :: as → step t = .next { t with arrivals := as }

/-- The words the encoder has before it when it steps next: those taken, those presented, and the one now arriving. -/
def State.wordsSeen (s : State) : List Word :=
  match s.arrivals with
  | .word w :: _ => s.rx ++ (s.cmdPort ++ [w])
  | .reset :: _ => s.rx ++ s.cmdPort
  | .txDone :: _ => s.rx ++ s.cmdPort
  | .quiet :: _ => s.rx ++ s.cmdPort
  | [] => s.rx ++ s.cmdPort

/-- The words a script presents, in order. -/
def wordsOf : List Arrival → List Word
  | [] => []
  | .word w :: as => w :: wordsOf as
  | .reset :: as => wordsOf as
  | .txDone :: as => wordsOf as
  | .quiet :: as => wordsOf as

end Sys2Proof.Machine
end

