-- ==== Sys2Proof/Certificates/Slice0/Obligations.lean ====
section
/-! DEFINITION. The statements about the model, each from the rules of spec/ its docstring names. -/

open Sys2Proof Sys2Proof.Machine

/-! Encoding (30_encoding.md). -/

/-- R54, R58: decoding the words of any well-formed command, whatever follows them, gives it back with its operands. -/
def Obligations.DecodeOfEncodeIsTheCommand : Prop :=
  ∀ (i : Instr) (rest : List Word), i.wf = true → decode (encode i ++ rest) = .instr i rest

/-- R54, R57: each command has one encoding, and no bit of it is ignored: words that decode to a command are its
encoding. -/
def Obligations.DecodedWordsAreTheEncoding : Prop :=
  ∀ (ws : List Word) (i : Instr) (rest : List Word),
    decode ws = .instr i rest → i.wf = true ∧ ws = encode i ++ rest

/-- R58: the decoder, case by case, on the number a word is: `op = w / 2^24`, `w[23:8] = w / 2^8 mod 2^16`,
`w[23:16] = w / 2^16 mod 2^8`, `n = w mod 2^16`. -/
def Obligations.DecodeFollowsTheOpcodeMap : Prop :=
  ∀ (w : Word) (q : List Word),
    (w.toNat / 2 ^ 24 = 1 →
      (w.toNat / 2 ^ 8 % 2 ^ 16 ≠ 0 → ∃ why, decode (w :: q) = .illegal why q) ∧
      (w.toNat / 2 ^ 8 % 2 ^ 16 = 0 → decode (w :: q) = .instr (.init (BitVec.ofNat 8 w.toNat)) q)) ∧
    (w.toNat / 2 ^ 24 = 2 →
      (w.toNat / 2 ^ 8 % 2 ^ 16 ≠ 0 → ∃ why, decode (w :: q) = .illegal why q) ∧
      (w.toNat / 2 ^ 8 % 2 ^ 16 = 0 → decode (w :: q) = .instr (.setbrt (BitVec.ofNat 8 w.toNat)) q)) ∧
    (w.toNat / 2 ^ 24 = 3 →
      (w.toNat / 2 ^ 16 % 2 ^ 8 ≠ 0 → ∃ why, decode (w :: q) = .illegal why q) ∧
      (w.toNat / 2 ^ 16 % 2 ^ 8 = 0 →
        (q.length < w.toNat % 2 ^ 16 → decode (w :: q) = .incomplete) ∧
        (w.toNat % 2 ^ 16 ≤ q.length → (∃ x ∈ q.take (w.toNat % 2 ^ 16), x.toNat / 2 ^ 24 ≠ 0) →
          ∃ why, decode (w :: q) = .illegal why (q.drop (w.toNat % 2 ^ 16))) ∧
        (w.toNat % 2 ^ 16 ≤ q.length → (∀ x ∈ q.take (w.toNat % 2 ^ 16), x.toNat / 2 ^ 24 = 0) →
          decode (w :: q) =
            .instr (.showPixels ((q.take (w.toNat % 2 ^ 16)).map fun x =>
              { r := BitVec.ofNat 8 (x.toNat / 2 ^ 16), g := BitVec.ofNat 8 (x.toNat / 2 ^ 8),
                b := BitVec.ofNat 8 x.toNat }))
              (q.drop (w.toNat % 2 ^ 16))))) ∧
    (w.toNat / 2 ^ 24 ≠ 1 → w.toNat / 2 ^ 24 ≠ 2 → w.toNat / 2 ^ 24 ≠ 3 → ∃ why, decode (w :: q) = .illegal why q)

/-- R62: the worked encodings: what each line of the table encodes to and decodes from, and the illegal words. -/
def Obligations.WorkedEncodingsDecode : Prop :=
  (assemble (.init none) = some [0x01000064] ∧ decode [0x01000064] = .instr (.init 100) []) ∧
  (assemble (.init (some 50)) = some [0x01000032] ∧ decode [0x01000032] = .instr (.init 50) []) ∧
  (assemble (.init (some 0)) = some [0x01000000] ∧ decode [0x01000000] = .instr (.init 0) []) ∧
  (assemble (.setbrt 100) = some [0x02000064] ∧ decode [0x02000064] = .instr (.setbrt 100) []) ∧
  (assemble (.setbrt 150) = some [0x02000096] ∧ decode [0x02000096] = .instr (.setbrt 150) []) ∧
  (assemble .blank = some [0x03000000] ∧ decode [0x03000000] = .instr (.showPixels []) []) ∧
  (assemble (.showPixels [(255, 0, 0)]) = some [0x03000001, 0x00FF0000] ∧
    decode [0x03000001, 0x00FF0000] = .instr (.showPixels [⟨255, 0, 0⟩]) []) ∧
  (assemble (.showPixels [(255, 255, 255), (0, 0, 0), (100, 200, 50)]) =
      some [0x03000003, 0x00FFFFFF, 0x00000000, 0x0064C832] ∧
    decode [0x03000003, 0x00FFFFFF, 0x00000000, 0x0064C832] =
      .instr (.showPixels [⟨255, 255, 255⟩, ⟨0, 0, 0⟩, ⟨100, 200, 50⟩]) []) ∧
  (assemble (.showPixels [(1, 2, 3), (4, 5, 6), (7, 8, 9), (10, 11, 12)]) =
      some [0x03000004, 0x00010203, 0x00040506, 0x00070809, 0x000A0B0C] ∧
    decode [0x03000004, 0x00010203, 0x00040506, 0x00070809, 0x000A0B0C] =
      .instr (.showPixels [⟨1, 2, 3⟩, ⟨4, 5, 6⟩, ⟨7, 8, 9⟩, ⟨10, 11, 12⟩]) []) ∧
  (∀ w ∈ ([0x00000000, 0x04000000, 0xFF000000, 0x01000100, 0x02010032, 0x03010000] : List Word),
    ∃ why, decode [w] = .illegal why []) ∧
  (∃ why, decode [0x03000002, 0x00010203, 0x01040506] = .illegal why [])

/-- R60, R61: the assembler refuses exactly the values that do not fit their fields; what it accepts decodes to the line's
command; `BLANK` is `SHOW` with no pixels and `INIT` without an operand is `INIT 100`. -/
def Obligations.AssemblerRefusesExactlyWhatDoesNotFit : Prop :=
  (∀ n, assemble (.init (some n)) = none ↔ 255 < n) ∧
  (∀ n, assemble (.setbrt n) = none ↔ 255 < n) ∧
  (∀ ps, assemble (.showPixels ps) = none ↔
    65535 < ps.length ∨ ∃ p ∈ ps, 255 < p.1 ∨ 255 < p.2.1 ∨ 255 < p.2.2) ∧
  (∀ n, n ≤ 255 → ∃ ws, assemble (.init (some n)) = some ws ∧
    decode ws = .instr (.init (BitVec.ofNat 8 n)) []) ∧
  (∀ n, n ≤ 255 → ∃ ws, assemble (.setbrt n) = some ws ∧
    decode ws = .instr (.setbrt (BitVec.ofNat 8 n)) []) ∧
  (∀ ps ws, assemble (.showPixels ps) = some ws →
    decode ws = .instr (.showPixels (ps.map fun p =>
      { r := BitVec.ofNat 8 p.1, g := BitVec.ofNat 8 p.2.1, b := BitVec.ofNat 8 p.2.2 })) []) ∧
  (assemble .blank = some [0x03000000] ∧ assemble .blank = assemble (.showPixels [])) ∧
  (assemble (.init none) = some [0x01000064] ∧ assemble (.init none) = assemble (.init (some 100)))

/-! The command port (R50, R55, R132, R165, R166). -/

/-- R55, R100, R165: in `UNINIT` and `IDLE`, when the words taken and presented decode to a command, the step is that
command's execution with its words consumed: on the encoder's own move, on a `quiet` one, and when the last word arrives.
That the very step in which the last word arrives executes the command, and that the encoder also moves on a `quiet` entry of
the list of moves, are the model's choice: log 6 (DEDUCED) and log 8 (DESIGN CHOICE). -/
def Obligations.StepRunsTheDecodedCommand : Prop :=
  ∀ (s : State) (i : Instr) (rest : List Word), s.phase = .uninit ∨ s.phase = .idle →
    (s.arrivals = [] → decode (s.rx ++ s.cmdPort) = .instr i rest →
      step s = exec i { s with rx := [], cmdPort := rest }) ∧
    (∀ as, s.arrivals = .quiet :: as → decode (s.rx ++ s.cmdPort) = .instr i rest →
      step s = exec i { s with rx := [], cmdPort := rest, arrivals := as }) ∧
    (∀ w as, s.arrivals = .word w :: as → decode (s.rx ++ (s.cmdPort ++ [w])) = .instr i rest →
      step s = exec i { s with rx := [], cmdPort := rest, arrivals := as })

/-- R57, R132, R136: illegal words, in `UNINIT` and `IDLE`: the illegal command's words are consumed, as many as its first
word says, `ERR` bit 0 is set, `Resp(1)` is emitted, and nothing else changes. When the response comes (in the step in which
the command's last word arrives, for a bad pixel word too) is the model's choice: log 6 and log 7 (both DEDUCED). -/
def Obligations.IllegalWordsAreConsumedAndReported : Prop :=
  (∀ (s : State) (why : Reject) (rest : List Word), s.phase = .uninit ∨ s.phase = .idle →
    (s.arrivals = [] → decode (s.rx ++ s.cmdPort) = .illegal why rest →
      step s = .next { s with
        rx := [], cmdPort := rest, err := s.err ||| 1
        outputs := s.outputs ++ [.resp (.failed .illegalCommand)] }) ∧
    (∀ w as, s.arrivals = .word w :: as → decode (s.rx ++ (s.cmdPort ++ [w])) = .illegal why rest →
      step s = .next { s with
        rx := [], cmdPort := rest, arrivals := as, err := s.err ||| 1
        outputs := s.outputs ++ [.resp (.failed .illegalCommand)] })) ∧
  (∀ (w : Word) (q : List Word) (why : Reject) (rest : List Word),
    decode (w :: q) = .illegal why rest → rest = (w :: q).drop (commandLength w)) ∧
  Response.code (.failed .illegalCommand) = 1

/-- R165: words are taken only in `UNINIT` and `IDLE`. While busy a presented word waits on the port, in order, and nothing
else changes; no step but a `Reset` takes a word, changes `BRT` or drops a word, and none changes the buffer under the
transmitter; back in `IDLE`, the held command is executed. (That the very next step executes it is the model's choice, log 6,
DEDUCED.) -/
def Obligations.WordsWaitWhileBusy : Prop :=
  (∀ (s : State) (w : Word) (as : List Arrival), s.busy = true → s.arrivals = .word w :: as →
    step s = .next { s with arrivals := as, cmdPort := s.cmdPort ++ [w] }) ∧
  (∀ s t : State, s.busy = true → s.arrivals.head? ≠ some .reset → step s = .next t →
    t.rx = s.rx ∧ t.brt = s.brt ∧ (∃ ws, t.cmdPort = s.cmdPort ++ ws) ∧ (s.phase = .tx → t.buf = s.buf)) ∧
  (∀ (s : State) (i : Instr) (rest : List Word), s.phase = .tx → s.rx = [] → decode s.cmdPort = .instr i rest →
    s.arrivals = [.txDone] → ∃ t, step s = .next t ∧ t.phase = .idle ∧ step t = exec i { t with rx := [], cmdPort := rest })

/-- R166, R58: a `SHOW` whose words have not all been presented is held in the phase it was presented in, with no response and no
effect, for as long as nothing arrives; when the missing words arrive, each taken as a pixel word, it is executed, or, when
one of them is no pixel word, illegal; a `Reset` forgets it. That execution, and `IllegalCommand` for a bad pixel word, come
in the step in which the last word arrives is the model's choice, log 6 and log 7 (both DEDUCED), and so are the moves `quiet`
and `word`, log 8 (DESIGN CHOICE). -/
def Obligations.IncompleteShowWaitsForItsWords : Prop :=
  ∀ (s : State) (w : Word) (q : List Word), s.phase = .uninit ∨ s.phase = .idle →
    opField w = 0x03 → zField w = 0 → q.length < countField w → s.rx = [] → s.cmdPort = w :: q →
    (s.arrivals = [] → ∀ k, core.run (k + 1) s = .next { s with rx := w :: q, cmdPort := [] }) ∧
    (∀ more : List Word, s.arrivals = .quiet :: more.map .word → q.length + more.length = countField w →
      ((∀ x ∈ q ++ more, opField x = 0) → core.run (more.length + 1) s =
        exec (.showPixels ((q ++ more).map pixelOfWord)) { s with rx := [], cmdPort := [], arrivals := [] }) ∧
      ((∃ x ∈ q ++ more, opField x ≠ 0) → core.run (more.length + 1) s =
        .next (raiseFault .illegalCommand { s with rx := [], cmdPort := [], arrivals := [] }))) ∧
    (∀ as, s.arrivals = .quiet :: .reset :: as →
      ∃ t, core.run 2 s = .next t ∧ t.phase = .uninit ∧ t.rx = [] ∧ t.cmdPort = [] ∧ t.outputs = s.outputs)

/-- MODEL'S OWN (log 9): placing the opcode table's word `w` of any row lets the very next step run the command the decoder
reads from it, from any state: in `UNINIT` when the block was there, else in `IDLE`. -/
def Obligations.PlacedTableWordRunsNext : Prop :=
  ∀ (s : State) (nbits w : Nat) (i : Instr), decodeTableWord nbits w = some i →
    step (s.withFetchWord nbits w) =
      exec i { s with
        phase := if s.phase = .uninit then .uninit else .idle, rx := [], cmdPort := [], arrivals := [] }

/-- R54, R58, and the layout of the opcode table's bits, the model's choice (log 18, DEDUCED): the words of a well-formed command,
the first in bits 31 to 0 and each later one in the next 32 bits, are read as that command; and the bits of a `SHOW`'s first
word alone are read as a `SHOW` whose pixel words are all zero. -/
def Obligations.TableBitsDecodeToTheCommand : Prop :=
  (∀ i : Instr, i.wf = true →
    decodeTableWord (32 * (encode i).length) ((encode i).foldr (fun w v => w.toNat + 2 ^ 32 * v) 0) = some i) ∧
  ∀ n, n ≤ 65535 → decodeTableWord 32 (0x03000000 + n) = some (.showPixels (List.replicate n ⟨0, 0, 0⟩))

/-! Reset and configuration (10_state.md R26, 70_reset_and_hazards.md R160, 00_scope.md R4). -/

/-- R26: the values after reset, at power-up for every configuration and for the block as built, and after a `Reset` event
in any state; a `TxDone` that comes then is ignored. (A `Reset` during a command and a stray `TxDone`, at power-up too, are the
spec's own inferences, 92_eei_decisions.md "Forms nothing in the source shows"; log 22.) -/
def Obligations.ResetLeavesTheStatedValues : Prop :=
  AtReset Config.asBuilt State.reset ∧
  (∀ (c : Config) (script : List Arrival), AtReset c (State.started c script)) ∧
  ∀ (s : State) (as : List Arrival), s.arrivals = .reset :: as → ∃ t, step s = .next t ∧ AtReset s.cfg t

/-- R160: a `Reset` in any phase: `UNINIT`, `BRT` 100, `ERR` 0, the buffer without values; no event is emitted; the words of
an incomplete `SHOW` are forgotten and the next word is decoded as a command word; a `TxDone` that comes later is ignored;
the configuration stays. That words not yet taken stay on the port is the model's choice, log 11 (DEDUCED), and that a command
is executed in the very step in which its last word arrives is the model's choice, log 6 (DEDUCED). (A `Reset` during a
command and a stray `TxDone` are the spec's own inferences, log 22.) -/
def Obligations.ResetAbandonsWhateverRuns : Prop :=
  ∀ (s : State) (as : List Arrival), s.arrivals = .reset :: as →
    ∃ t, step s = .next t ∧ t.phase = .uninit ∧ t.brt = 100 ∧ t.err = 0 ∧ (∀ a, t.buf.read a = none) ∧
      t.outputs = s.outputs ∧ t.rx = [] ∧ t.cmdPort = s.cmdPort ∧ t.cfg = s.cfg ∧ t.arrivals = as ∧
      (∀ bs, as = .txDone :: bs → step t = .next { t with arrivals := bs }) ∧
      (∀ w bs i rest, as = .word w :: bs → decode (s.cmdPort ++ [w]) = .instr i rest →
        step t = exec i { t with arrivals := bs, cmdPort := rest })

/-- R4: a configuration with `N` outside 1 to 65535 is refused when the model is instantiated, and no other is. -/
def Obligations.BadLedCountIsRefusedAtInstantiation : Prop :=
  ∀ c : Config,
    (State.instantiate c = none ↔ c.ledCount = 0 ∨ 65535 < c.ledCount) ∧
    (1 ≤ c.ledCount → c.ledCount ≤ 65535 → State.instantiate c = some (State.resetWith c)) ∧
    Config.asBuilt.wf = true

/-- R10, R11, R14: nothing writes the LED count, the symbol table or the store mode: no step changes the configuration. -/
def Obligations.NoStepWritesTheConfiguration : Prop :=
  ∀ s t : State, step s = .next t → t.cfg = s.cfg

/-! The transmitter (60_exceptions.md R143 to R146). -/

/-- R145, R110: a `TxDone` taken in `TX` moves to `IDLE` and emits `Resp(0)`; in any other phase it is ignored and changes
nothing. (A stray `TxDone` is the spec's own inference, 92_eei_decisions.md "Forms nothing in the source shows"; log 22.) -/
def Obligations.TxDoneEndsTheWaitOrIsIgnored : Prop :=
  ∀ (s : State) (as : List Arrival), s.arrivals = .txDone :: as →
    (s.phase = .tx →
      step s = .next { s with arrivals := as, phase := .idle, outputs := s.outputs ++ [.resp .success] }) ∧
    (s.phase ≠ .tx → step s = .next { s with arrivals := as })

/-- R146: with no `TxDone` and no `Reset`, `TX` lasts for ever: busy, no response, no command taken, `ERR` untouched; the
words presented meanwhile are held. A `Reset` ends it. The list of moves, one a step, with its
`quiet` entries is the model's choice, log 8 (DESIGN CHOICE). (A `Reset` during a command is the spec's own inference, log 22.) -/
def Obligations.UnansweredTransmitWaitsForEver : Prop :=
  (∀ (k : Nat) (s : State), s.phase = .tx → NoAnswer s.arrivals →
    ∃ t, core.run k s = .next t ∧ t.phase = .tx ∧ t.busy = true ∧ t.outputs = s.outputs ∧ t.err = s.err ∧
      t.rx = s.rx ∧ t.brt = s.brt ∧ t.cmdPort = s.cmdPort ++ wordsOf (s.arrivals.take k)) ∧
  (∀ (s : State) (as : List Arrival), s.phase = .tx → s.arrivals = .reset :: as →
    ∃ t, step s = .next t ∧ t.phase = .uninit)

/-- R110, R146 under the premise TX_COMPLETES of R4: a transmit that is answered after the moves `pre` ends its command one
step after them, with `Resp(0)`, and the buffer, `BRT` and `ERR` as they were. The list of moves, one a step, with its `quiet`
entries is the model's choice, log 8 (DESIGN CHOICE). -/
def Obligations.AnsweredTransmitCompletesTheCommand : Prop :=
  ∀ (s : State) (pre post : List Arrival), s.phase = .tx → s.arrivals = pre ++ .txDone :: post → NoAnswer pre →
    ∃ t, core.run (pre.length + 1) s = .next t ∧ t.phase = .idle ∧ t.outputs = s.outputs ++ [.resp .success] ∧
      t.buf = s.buf ∧ t.brt = s.brt ∧ t.err = s.err ∧ t.arrivals = post ∧ t.cmdPort = s.cmdPort ++ wordsOf pre

/-- R41 (b), R144: while `TX` the buffer, and so the frame the transmitter reads, does not change, but by a `Reset`. -/
def Obligations.BufferIsStableDuringTransmit : Prop :=
  ∀ s t : State, s.phase = .tx → s.arrivals.head? ≠ some .reset → step s = .next t →
    t.buf = s.buf ∧ t.frame = s.frame

/-! Faults (60_exceptions.md R130 to R138). -/

/-- R136: raising a fault sets its own `ERR` bit and emits its response code, and changes nothing else; no fault is raised
while the block is busy. -/
def Obligations.FaultEntrySetsOneBitAndResponds : Prop :=
  (∀ (c : FaultCause) (s : State),
    (∀ j, j < 4 → (raiseFault c s).err.getLsbD j = (s.err.getLsbD j || decide (j + 1 = c.code))) ∧
    (raiseFault c s).outputs = s.outputs ++ [.resp (.failed c)] ∧
    { raiseFault c s with err := s.err, outputs := s.outputs } = s) ∧
  (∀ s t : State, s.busy = true → s.arrivals.head? ≠ some .reset → step s = .next t →
    t.err = s.err ∧ ∀ c, t.outputs ≠ s.outputs ++ [.resp (.failed c)]) ∧
  Response.code .success = 0 ∧ Response.code (.failed .illegalCommand) = 1 ∧
  Response.code (.failed .notInitialized) = 2 ∧ Response.code (.failed .invalidArgument) = 3 ∧
  Response.code (.failed .brightnessRange) = 4

/-- R133, R134, R135, R138: the conditions of the faults of the commands, and their priority: decoding before any state,
then `NotInitialized`, `InvalidArgument`, `BrightnessRange`; only the reported fault is raised. That `IllegalCommand` comes in the
very step in which the command's last word arrives is the model's choice, log 6, and for a bad pixel word log 7 (both DEDUCED);
the moves `quiet` and `word` are log 8 (DESIGN CHOICE). (A `SHOW` with `n = 0` from the host and a second `INIT` are the spec's
own inferences, log 22.) -/
def Obligations.FaultsAreReportedInPriorityOrder : Prop :=
  (∀ (s : State) (why : Reject) (rest : List Word), s.phase = .uninit ∨ s.phase = .idle →
    s.arrivals.head? ≠ some .reset → s.arrivals.head? ≠ some .txDone → decode s.wordsSeen = .illegal why rest →
    step s = .next (raiseFault .illegalCommand { s with rx := [], cmdPort := rest, arrivals := s.arrivals.tail })) ∧
  (∀ (s : State) (ps : List Pixel), s.phase = .uninit →
    exec (.showPixels ps) s = .next (raiseFault .notInitialized s)) ∧
  (∀ (s : State) (v : Byte), s.phase = .uninit → exec (.setbrt v) s = .next (raiseFault .notInitialized s)) ∧
  (∀ (s : State) (ps : List Pixel), s.phase = .idle → s.cfg.ledCount < ps.length →
    exec (.showPixels ps) s = .next (raiseFault .invalidArgument s)) ∧
  (∀ (s : State) (ps : List Pixel), s.phase = .idle → ps.length ≤ s.cfg.ledCount → 100 < s.brt.toNat →
    exec (.showPixels ps) s = .next (raiseFault .brightnessRange s)) ∧
  (∀ (s : State) (b : Byte), s.phase = .uninit ∨ s.phase = .idle → 100 < b.toNat →
    exec (.init b) s = .next (raiseFault .brightnessRange s))

/-- R90, R100, R120 (their "Faults" paragraphs), R130: a command faults on no other condition than those of R133 to R135. -/
def Obligations.CommandsFaultOnNoOtherCondition : Prop :=
  ∀ (i : Instr) (s t : State) (c : FaultCause), s.phase = .uninit ∨ s.phase = .idle → exec i s = .next t →
    t.outputs = s.outputs ++ [.resp (.failed c)] →
    (∃ ps, i = .showPixels ps ∧ c = .notInitialized ∧ s.phase = .uninit) ∨
    (∃ v, i = .setbrt v ∧ c = .notInitialized ∧ s.phase = .uninit) ∨
    (∃ ps, i = .showPixels ps ∧ c = .invalidArgument ∧ s.phase = .idle ∧ s.cfg.ledCount < ps.length) ∨
    (∃ ps, i = .showPixels ps ∧ c = .brightnessRange ∧ s.phase = .idle ∧ ps.length ≤ s.cfg.ledCount ∧ 100 < s.brt.toNat) ∨
    (∃ b, i = .init b ∧ c = .brightnessRange ∧ 100 < b.toNat)

/-- R16: a set `ERR` bit is cleared by nothing but a `Reset`; a fault sets the bit of its code less one. (A `Reset` during a
command is the spec's own inference, log 22.) -/
def Obligations.ErrBitsAreStickyUntilReset : Prop :=
  (∀ s t : State, step s = .next t → s.arrivals.head? ≠ some .reset →
    ∀ j, s.err.getLsbD j = true → t.err.getLsbD j = true) ∧
  (∀ (c : FaultCause) (s : State), (raiseFault c s).err.getLsbD (c.code - 1) = true) ∧
  (∀ (s : State) (as : List Arrival), s.arrivals = .reset :: as → ∃ t, step s = .next t ∧ t.err = 0)

/-- R137, R16: `ERR = 0` at the end is a no-fault premise: in a run from reset without a further `Reset`, a reported fault
leaves its `ERR` bit, so a run that ends with `ERR = 0` has reported none. -/
def Obligations.ErrZeroMeansNoFaultWasReported : Prop :=
  ∀ (c : Config) (script : List Arrival) (k : Nat) (t : State), .reset ∉ script →
    core.run k (State.started c script) = .next t →
    (∀ f : FaultCause, .resp (.failed f) ∈ t.outputs → t.err.getLsbD (f.code - 1) = true) ∧
    (NoCommandFault t → ∀ f : FaultCause, .resp (.failed f) ∉ t.outputs)

/-! SETBRT (43_setbrt.md). -/

/-- R120: after initialisation `SETBRT v` completes, for every 8-bit `v`: it writes `BRT`, emits `Resp(0)`, and changes nothing
else at all. -/
def Obligations.SetbrtWritesBrightnessAndNothingElse : Prop :=
  ∀ (s : State) (v : Byte),
    (s.phase = .idle →
      exec (.setbrt v) s = .next { s with brt := v, outputs := s.outputs ++ [.resp .success] }) ∧
    (s.phase = .uninit →
      exec (.setbrt v) s = .next { s with err := s.err ||| 2, outputs := s.outputs ++ [.resp (.failed .notInitialized)] })

/-! INIT (41_init.md). -/

/-- R90: `INIT b`, as one atomic command, in `UNINIT` and in `IDLE`: with `b > 100` it faults and changes nothing else; with
`b <= 100` it completes with `BRT = b`, every slot
the off symbol, one frame of the whole buffer handed over, `TX`; `ERR` and the words to come are unchanged, and no byte
beyond the buffer is written; its `TxDone` then gives `IDLE` and `Resp(0)`. (An `INIT` issued a second time, so one in `IDLE`, is the
spec's own inference, 92_eei_decisions.md "Forms nothing in the source shows"; log 22.) -/
def Obligations.InitTurnsEveryLedOff : Prop :=
  ∀ (s : State) (b : Byte), s.phase = .uninit ∨ s.phase = .idle → s.cfg.level = .command →
    (100 < b.toNat → exec (.init b) s =
      .next { s with err := s.err ||| 8, outputs := s.outputs ++ [.resp (.failed .brightnessRange)] }) ∧
    (b.toNat ≤ 100 → ∃ t, exec (.init b) s = .next t ∧ t.brt = b ∧ t.phase = .tx ∧
      (∀ j, j < 12 * s.cfg.ledCount → SlotHolds s.cfg t.buf (2 * j) s.cfg.sym0) ∧
      (∀ a, 24 * s.cfg.ledCount ≤ a → t.buf.read a = s.buf.read a) ∧
      (∃ f : Frame, t.outputs = s.outputs ++ [.txStart f] ∧ f.length = 24 * s.cfg.ledCount ∧
        ∀ a, a < 24 * s.cfg.ledCount → f[a]? = t.buf.read a) ∧
      t.cfg = s.cfg ∧ t.err = s.err ∧ t.rx = s.rx ∧ t.cmdPort = s.cmdPort ∧ t.arrivals = s.arrivals ∧ t.resets = s.resets ∧
      ∀ as, step { t with arrivals := .txDone :: as } =
        .next { t with arrivals := as, phase := .idle, outputs := t.outputs ++ [.resp .success] })

/-- R91, R109, R106: `INIT b` with `b <= 100` at the slot level completes its start step: `BRT = b`, every byte of the buffer
0x00, the latches set for a blank fill, phase `OFF`; nothing is emitted and nothing else changes. (An `INIT` issued a second time
is the spec's own inference, log 22.) -/
def Obligations.InitAtSlotLevelClearsAndStarts : Prop :=
  ∀ (s : State) (b : Byte), s.phase = .uninit ∨ s.phase = .idle → s.cfg.level = .slot → b.toNat ≤ 100 →
    ∃ m, exec (.init b) s =
        .next { s with brt := b, buf := m, phase := .off, wp := 0, i := 0, k := 0, bl := b, npix := 0, pq := [] } ∧
      (∀ a, a < 24 * s.cfg.ledCount → m.read a = some 0) ∧ (∀ a, 24 * s.cfg.ledCount ≤ a → m.read a = s.buf.read a)

/-! SHOW (42_show.md). -/

/-- R100, R102, R103, R143: `SHOW` as one atomic command completes when the block is in `IDLE`, `n <= N` and `BRT <= 100`: each
slot of each LED gets the symbol of its group when the LED is lit and the off symbol when not, the low byte at the even
offset, the high byte at the odd one under `FULL16`, which under `LOW8` is unchanged; no byte beyond the buffer changes; one
frame, the whole buffer, is handed over; `TX`; `BRT`, `ERR` and everything the command does not name are unchanged; its
`TxDone` then gives `IDLE` and `Resp(0)`. Otherwise it faults with the first cause in order, and changes nothing else. (A
`SHOW` with `n = 0` issued by the host is the spec's own inference, 92_eei_decisions.md "Forms nothing in the source shows";
log 22.) -/
def Obligations.ShowFillsTheBufferAndHandsItOver : Prop :=
  (∀ (s : State) (ps : List Pixel), s.phase = .uninit → exec (.showPixels ps) s =
    .next { s with err := s.err ||| 2, outputs := s.outputs ++ [.resp (.failed .notInitialized)] }) ∧
  (∀ (s : State) (ps : List Pixel), s.phase = .idle → s.cfg.ledCount < ps.length → exec (.showPixels ps) s =
    .next { s with err := s.err ||| 4, outputs := s.outputs ++ [.resp (.failed .invalidArgument)] }) ∧
  (∀ (s : State) (ps : List Pixel), s.phase = .idle → ps.length ≤ s.cfg.ledCount → 100 < s.brt.toNat →
    exec (.showPixels ps) s =
      .next { s with err := s.err ||| 8, outputs := s.outputs ++ [.resp (.failed .brightnessRange)] }) ∧
  ∀ (s : State) (ps : List Pixel) (b : Brightness), s.phase = .idle → s.cfg.level = .command →
    ps.length ≤ s.cfg.ledCount → s.brt.toNat = b.val →
    ∃ t, exec (.showPixels ps) s = .next t ∧ t.phase = .tx ∧
      (∀ i k, i < s.cfg.ledCount → k < 12 →
        t.buf.read (24 * i + 2 * k) = some (lowByte (filledSymbol s.cfg b ps i k)) ∧
        (s.cfg.storeMode = .full16 →
          t.buf.read (24 * i + 2 * k + 1) = some (highByte (filledSymbol s.cfg b ps i k))) ∧
        (s.cfg.storeMode = .low8 → t.buf.read (24 * i + 2 * k + 1) = s.buf.read (24 * i + 2 * k + 1))) ∧
      (∀ a, 24 * s.cfg.ledCount ≤ a → t.buf.read a = s.buf.read a) ∧
      (∃ f : Frame, t.outputs = s.outputs ++ [.txStart f] ∧ f.length = 24 * s.cfg.ledCount ∧
        ∀ a x, a < 24 * s.cfg.ledCount → t.buf.read a = some x → f[a]? = some x) ∧
      t.brt = s.brt ∧ t.err = s.err ∧ t.cfg = s.cfg ∧ t.rx = s.rx ∧ t.cmdPort = s.cmdPort ∧ t.arrivals = s.arrivals ∧
      t.resets = s.resets ∧
      ∀ as, step { t with arrivals := .txDone :: as } =
        .next { t with arrivals := as, phase := .idle, outputs := t.outputs ++ [.resp .success] }

/-- R109: the start step of a `SHOW` at the slot level: the latches, and the phase `ENC` when there is a pixel, `OFF` when
there is none; nothing is stored or emitted, and nothing else changes. (A `SHOW` with `n = 0` issued by the host is the spec's own
inference, log 22.) -/
def Obligations.ShowAtSlotLevelSetsTheLatches : Prop :=
  ∀ (s : State) (ps : List Pixel), s.phase = .idle → s.cfg.level = .slot → ps.length ≤ s.cfg.ledCount →
    s.brt.toNat ≤ 100 →
    (1 ≤ ps.length → exec (.showPixels ps) s =
      .next { s with npix := ps.length, pq := ps, bl := s.brt, wp := 0, i := 0, k := 0, phase := .enc }) ∧
    (ps.length = 0 → exec (.showPixels ps) s =
      .next { s with npix := 0, pq := [], bl := s.brt, wp := 0, i := 0, k := 0, phase := .off })

/-- R107: an `ENC` step under its precondition, with nothing to come or on a `quiet` move: it completes; the slot at `WP` gets
the symbol of the pixel's group and no other byte changes; `WP`, `K`, `I` advance; after the last slot of the last pixel the phase is `OFF` when `n < N`, else the
frame is handed over; `BRT` and `ERR` are unchanged. The latch of the scaled pixel is the invariant of `SC` (R19).
The list of moves with its `quiet` entries, each used up by the step, is the model's choice, log 8 (DESIGN CHOICE). -/
def Obligations.EncStepWritesOneLitSlot : Prop :=
  ∀ (s : State) (as : List Arrival) (p : Pixel) (b : Brightness), s.phase = .enc →
    (s.arrivals = [] ∧ as = []) ∨ s.arrivals = .quiet :: as →
    s.i < s.npix → s.k ≤ 11 → s.wp = 24 * s.i + 2 * s.k → s.npix = s.pq.length → s.npix ≤ s.cfg.ledCount →
    s.pq[s.i]? = some p → s.bl.toNat = b.val → (0 < s.k → s.sc = scaleGRB p b) →
    ∃ t, step s = .next t ∧ t.sc = scaleGRB p b ∧
      t.buf = symStore s.cfg s.buf s.wp (lookup s.cfg (slotGroup p b s.k)) ∧ t.wp = s.wp + 2 ∧
      t.brt = s.brt ∧ t.err = s.err ∧ t.bl = s.bl ∧ t.npix = s.npix ∧ t.pq = s.pq ∧ t.cfg = s.cfg ∧
      t.rx = s.rx ∧ t.cmdPort = s.cmdPort ∧ t.arrivals = as ∧ t.resets = s.resets ∧
      (s.k < 11 → t.k = s.k + 1 ∧ t.i = s.i ∧ t.phase = .enc ∧ t.outputs = s.outputs) ∧
      (s.k = 11 → t.k = 0 ∧ t.i = s.i + 1 ∧
        (s.i + 1 < s.npix → t.phase = .enc ∧ t.outputs = s.outputs) ∧
        (s.i + 1 = s.npix → s.npix < s.cfg.ledCount → t.phase = .off ∧ t.outputs = s.outputs) ∧
        (s.i + 1 = s.npix → s.npix = s.cfg.ledCount →
          t.phase = .tx ∧ t.outputs = s.outputs ++ [.txStart t.frame]))

/-- R108: an `OFF` step under its precondition, with nothing to come or on a `quiet` move: it completes; the slot at
`WP` gets the off symbol, `WP` advances, and at the end of the buffer the frame is handed over; nothing else changes.
The list of moves with its `quiet` entries, each used up by the step, is the model's choice, log 8 (DESIGN CHOICE). -/
def Obligations.OffStepWritesOneOffSlot : Prop :=
  ∀ (s : State) (as : List Arrival), s.phase = .off → (s.arrivals = [] ∧ as = []) ∨ s.arrivals = .quiet :: as →
    s.wp % 2 = 0 → 24 * s.npix ≤ s.wp → s.wp + 2 ≤ 24 * s.cfg.ledCount →
    (s.wp + 2 ≠ 24 * s.cfg.ledCount →
      step s = .next { s with
        buf := symStore s.cfg s.buf s.wp s.cfg.sym0, wp := s.wp + 2, arrivals := as }) ∧
    (s.wp + 2 = 24 * s.cfg.ledCount →
      ∃ t, step s = .next t ∧ t = { s with
        buf := symStore s.cfg s.buf s.wp s.cfg.sym0, wp := s.wp + 2, phase := .tx, arrivals := as
        outputs := s.outputs ++ [.txStart t.frame] })

/-- R112: running the start step and then the controller's own steps, `12*N` of them, ends in exactly the state the atomic
command leaves: the same buffer, the same frame, the same latches; and the step on `TxDone` then emits the same `Resp(0)`.
That the latches agree too is not R112's: which values the atomic command leaves in them is the model's choice, log 15
(DEDUCED). (A `SHOW` with `n = 0` issued by the host is the spec's own inference, log 22.) -/
def Obligations.SlotStepsAgreeWithTheAtomicCommand : Prop :=
  ∀ (s : State) (ps : List Pixel) (b : Brightness), s.arrivals = [] → 1 ≤ s.cfg.ledCount →
    ps.length ≤ s.cfg.ledCount → s.brt.toNat = b.val →
    core.run (12 * s.cfg.ledCount) (startFill ps s) = .next (runFill b ps (startFill ps s)) ∧
    ∀ as, step { runFill b ps (startFill ps s) with arrivals := .txDone :: as } =
      .next { runFill b ps (startFill ps s) with
        arrivals := as, phase := .idle
        outputs := (runFill b ps (startFill ps s)).outputs ++ [.resp .success] }

/-- R41 (a), R102, R175: after `j` steps of a started fill exactly the first `j` slots have been written, in increasing offset
order (the low byte of each, and its high byte under `FULL16`; under `LOW8` that byte is as it was): the first `12*n` by `ENC` steps, the rest by `OFF` steps; nothing is emitted before the last. -/
def Obligations.FillWritesItsSlotsInOrder : Prop :=
  ∀ (s : State) (ps : List Pixel) (b : Brightness) (j : Nat), s.arrivals = [] → ps.length ≤ s.cfg.ledCount →
    s.brt.toNat = b.val → j < 12 * s.cfg.ledCount →
    ∃ t, core.run j (startFill ps s) = .next t ∧ t.wp = 2 * j ∧ t.outputs = s.outputs ∧
      (j < 12 * ps.length → t.phase = .enc) ∧ (12 * ps.length ≤ j → t.phase = .off) ∧
      (∀ x, x < j → t.buf.read (2 * x) = some (lowByte (filledSymbol s.cfg b ps (x / 12) (x % 12)))) ∧
      (∀ x, x < j → s.cfg.storeMode = .full16 →
        t.buf.read (2 * x + 1) = some (highByte (filledSymbol s.cfg b ps (x / 12) (x % 12)))) ∧
      (∀ x, x < j → s.cfg.storeMode = .low8 → t.buf.read (2 * x + 1) = s.buf.read (2 * x + 1)) ∧
      (∀ a, 2 * j ≤ a → t.buf.read a = s.buf.read a)

/-- R104 (a) (§8 property 5): the same `SHOW` twice, with the same brightness, hands over byte-identical frames. (For
`n = 0`, issued by the host, the spec's own inference, log 22.) -/
def Obligations.ShowIsIdempotent : Prop :=
  ∀ (s t u v : State) (ps : List Pixel) (as : List Arrival), s.phase = .idle → s.cfg.level = .command →
    exec (.showPixels ps) s = .next t → t.phase = .tx →
    step { t with arrivals := .txDone :: as } = .next u → exec (.showPixels ps) u = .next v →
    v.outputs = u.outputs ++ [.txStart t.frame] ∧ ∀ a, v.buf.read a = t.buf.read a

/-- R39, R103, R121: the frame of a `SHOW` depends on the pixels, the brightness and the configuration alone: two initialised
blocks that agree on those hand over the same frame, whatever each has shown before. (For `n = 0`, issued by the host, the spec's
own inference, log 22.) -/
def Obligations.FrameForgetsEarlierShows : Prop :=
  ∀ (s s' t t' : State) (ps : List Pixel), BlockInv s → BlockInv s' → s.phase = .idle → s'.phase = .idle →
    s.cfg = s'.cfg → s.cfg.level = .command → s.brt = s'.brt →
    exec (.showPixels ps) s = .next t → exec (.showPixels ps) s' = .next t' → t.phase = .tx →
    t'.phase = .tx ∧ t.frame = t'.frame ∧ t.buf = t'.buf

/-- R80: the bytes of LED `i` after a fill depend only on pixel `i` and the brightness, not on another pixel. -/
def Obligations.LedBytesDependOnItsOwnPixelOnly : Prop :=
  ∀ (c : Config) (b : Brightness) (ps qs : List Pixel) (m : Memory) (i a : Nat),
    ps.length ≤ c.ledCount → qs.length ≤ c.ledCount → i < c.ledCount → ps[i]? = qs[i]? →
    24 * i ≤ a → a < 24 * i + 24 → (fill c b ps m).read a = (fill c b qs m).read a

/-! The datapath (40_datapath.md). -/

/-- R70, R71: the laws of `Scale`: the floor of the full product by 100, range, identity, zeros, monotonicity, when small
products vanish, the worked values, and that each channel of a pixel is scaled on its own. -/
def Obligations.ScaleFollowsItsLaws : Prop :=
  (∀ (c : Byte) (b : Brightness), (scale c b).toNat = c.toNat * b.val / 100 ∧ (scale c b).toNat ≤ c.toNat) ∧
  (∀ c : Byte, scale c 100 = c ∧ scale c 0 = 0) ∧ (∀ b : Brightness, scale 0 b = 0) ∧
  (∀ (c c' : Byte) (b b' : Brightness), c.toNat ≤ c'.toNat → b.val ≤ b'.val → (scale c b).toNat ≤ (scale c' b').toNat) ∧
  (∀ (c : Byte) (b : Brightness), scale c b = 0 ↔ c.toNat * b.val < 100) ∧
  (scale 1 99 = 0 ∧ scale 99 1 = 0 ∧ scale 100 1 = 1) ∧
  (∀ (p q : Pixel) (b : Brightness), p.r = q.r → (scaleGRB p b).extractLsb' 8 8 = (scaleGRB q b).extractLsb' 8 8) ∧
  (∀ (p q : Pixel) (b : Brightness), p.g = q.g → (scaleGRB p b).extractLsb' 16 8 = (scaleGRB q b).extractLsb' 16 8) ∧
  (∀ (p q : Pixel) (b : Brightness), p.b = q.b → (scaleGRB p b).extractLsb' 0 8 = (scaleGRB q b).extractLsb' 0 8) ∧
  scale 255 50 = 127 ∧ scale 100 50 = 50 ∧ scale 200 50 = 100 ∧ scale 50 50 = 25 ∧ scale 0 50 = 0

/-- R81, R135: a register value above 100 is no brightness `Scale` can take; a value up to 100 is one, itself. -/
def Obligations.OnlyUsableBrightnessesScale : Prop :=
  ∀ v : Byte, (100 < v.toNat ↔ usableBrightness v = none) ∧
    (v.toNat ≤ 100 → ∃ b, usableBrightness v = some b ∧ b.val = v.toNat)

/-- R72: a group is its two bits, the four groups make up the channel, and a channel's groups are emitted most significant
first. -/
def Obligations.GroupsMakeUpTheChannel : Prop :=
  (∀ (p : Pixel) (b : Brightness),
    [0, 1, 2, 3].map (slotGroup p b) = [0, 1, 2, 3].map (group (scale p.g b)) ∧
    [4, 5, 6, 7].map (slotGroup p b) = [0, 1, 2, 3].map (group (scale p.r b)) ∧
    [8, 9, 10, 11].map (slotGroup p b) = [0, 1, 2, 3].map (group (scale p.b b))) ∧
  ∀ s : Byte,
    (group s 0).toNat = s.toNat / 64 % 4 ∧ (group s 1).toNat = s.toNat / 16 % 4 ∧
    (group s 2).toNat = s.toNat / 4 % 4 ∧ (group s 3).toNat = s.toNat % 4 ∧
    s.toNat = 64 * (group s 0).toNat + 16 * (group s 1).toNat + 4 * (group s 2).toNat + (group s 3).toNat

/-- R74, R31: the scaled word is green, red, blue, slot `k` is its bits `23 - 2*k : 22 - 2*k`, and the groups of the slots are the groups of those channels, most
significant first. -/
def Obligations.SlotsAreGreenRedBlue : Prop :=
  ∀ (p : Pixel) (b : Brightness),
    (scaleGRB p b).extractLsb' 16 8 = scale p.g b ∧ (scaleGRB p b).extractLsb' 8 8 = scale p.r b ∧
    (scaleGRB p b).extractLsb' 0 8 = scale p.b b ∧
    (∀ k, k < 12 → (slotGroup p b k).toNat = (scaleGRB p b).toNat / 2 ^ (22 - 2 * k) % 4) ∧
    ∀ j : Fin 4, slotGroup p b j = group (scale p.g b) j ∧ slotGroup p b (4 + j) = group (scale p.r b) j ∧
      slotGroup p b (8 + j) = group (scale p.b b) j

/-- R73, R75, R76: `Lookup(g)` is `SYM[g]` for each of the four groups; an encoded pixel is the twelve symbols of its groups,
as in R75's example; the off symbol is `SYM[0]`, and a slot of a fill gets the symbol of its group when its LED is lit and the
off symbol when not; a black pixel, and any pixel at brightness 0, is an off LED; an explicitly black pixel gets the bytes of
an LED beyond the end of the sequence. -/
def Obligations.BlackPixelsEncodeAsOff : Prop :=
  (∀ c : Config, lookup c 0 = c.sym0 ∧ lookup c 1 = c.sym1 ∧ lookup c 2 = c.sym2 ∧ lookup c 3 = c.sym3 ∧
    offSymbol c = c.sym0) ∧
  (∀ (c : Config) (b : Brightness) (ps : List Pixel) (i k : Nat),
    (∀ p, ps[i]? = some p → filledSymbol c b ps i k = lookup c (slotGroup p b k)) ∧
    (ps.length ≤ i → filledSymbol c b ps i k = c.sym0)) ∧
  (∀ c : Config, encodePixel c ⟨255, 0, 0⟩ 100 =
    List.replicate 4 c.sym0 ++ List.replicate 4 c.sym3 ++ List.replicate 4 c.sym0) ∧
  (∀ (c : Config) (p : Pixel) (b : Brightness) (k : Nat), k < 12 →
    (encodePixel c p b)[k]? = some (lookup c (slotGroup p b k)) ∧ (encodePixel c p b).length = 12) ∧
  (∀ (c : Config) (b : Brightness), encodePixel c ⟨0, 0, 0⟩ b = offLed c) ∧
  (∀ (c : Config) (p : Pixel), encodePixel c p 0 = offLed c) ∧
  (∀ c : Config, offLed c = List.replicate 12 c.sym0) ∧
  (∀ (c : Config) (b : Brightness) (ps : List Pixel) (m : Memory), ps.length < c.ledCount →
    fill c b (ps ++ [⟨0, 0, 0⟩]) m = fill c b ps m)

/-! The buffer (20_memory.md). -/

/-- R32, R33: a symbol store writes the low byte at the even offset, and the high byte at the odd one under `FULL16` only;
every other byte is unchanged; under `FULL16` it is `MemWrite(a, 2, s)`, under `LOW8` `MemWrite(a, 1, s)`. The low and the high
byte of a symbol, of which the other statements speak, are its two bytes. -/
def Obligations.SymStoreWritesItsSlotOnly : Prop :=
  ∀ (c : Config) (m : Memory) (a : Nat) (s : Symbol),
    (lowByte s).toNat = s.toNat % 256 ∧ (highByte s).toNat = s.toNat / 256 ∧
    (symStore c m a s).read a = some (BitVec.ofNat 8 s.toNat) ∧
    (c.storeMode = .full16 → (symStore c m a s).read (a + 1) = some (BitVec.ofNat 8 (s.toNat / 256)) ∧
      symStore c m a s = memWrite m a 2 s.toNat ∧ memRead (symStore c m a s) a 2 = some s.toNat) ∧
    (c.storeMode = .low8 → (symStore c m a s).read (a + 1) = m.read (a + 1) ∧
      symStore c m a s = memWrite m a 1 s.toNat) ∧
    ∀ x, x ≠ a → x ≠ a + 1 → (symStore c m a s).read x = m.read x

/-- R7: `MemRead` after `MemWrite` of the same bytes gives the value's low bytes, little-endian, and no other byte changes. -/
def Obligations.MemReadGivesWhatMemWriteWrote : Prop :=
  ∀ (m : Memory) (a n v : Nat),
    memRead (memWrite m a n v) a n = some (v % 256 ^ n) ∧
    (∀ j, j < n → (memWrite m a n v).read (a + j) = some (BitVec.ofNat 8 (v / 256 ^ j))) ∧
    ∀ x, x < a ∨ a + n ≤ x → (memWrite m a n v).read x = m.read x

/-- R35: the clear writes 0x00 to every byte of the buffer and to no other. -/
def Obligations.BufClearZeroesTheBuffer : Prop :=
  ∀ (c : Config) (m : Memory) (a : Nat),
    (a < 24 * c.ledCount → (bufClear c m).read a = some 0) ∧
    (24 * c.ledCount ≤ a → (bufClear c m).read a = m.read a)

/-- MODEL'S OWN (the canonical form of memory, 10_state.md R13): every step keeps the buffer's offsets strictly rising. -/
def Obligations.StepKeepsTheBufferCanonical : Prop :=
  ∀ s t : State, s.buf.wf → step s = .next t → t.buf.wf

/-! The whole machine. -/

/-- R20: the status levels as functions of the state; no command's result depends on an `ERR` bit set earlier. -/
def Obligations.StatusLevelsFollowTheState : Prop :=
  ∀ s : State,
    (s.busy = true ↔ s.phase = .enc ∨ s.phase = .off ∨ s.phase = .tx) ∧
    (s.txActive = true ↔ s.phase = .tx) ∧ (s.faultLevel = true ↔ s.err ≠ 0) ∧
    s.status.extractLsb' 0 3 = s.phase.code ∧ s.status.getLsbD 3 = s.busy ∧ s.status.getLsbD 4 = s.txActive ∧
    s.status.getLsbD 5 = s.faultLevel ∧
    (∀ (i : Instr) (e : BitVec 4) (t : State), s.phase = .uninit ∨ s.phase = .idle → exec i s = .next t →
      ∃ e', exec i { s with err := e } = .next { t with err := e' }) ∧
    Phase.code .uninit = 0 ∧ Phase.code .idle = 1 ∧ Phase.code .enc = 2 ∧ Phase.code .off = 3 ∧ Phase.code .tx = 4

/-- R21: the control and status registers: their numbers, what each holds in its width, their values after reset, and who writes
them: nothing writes `LEDCNT`, `STATUS` is a function of the state, `INIT` and `SETBRT` write `BRT` with exactly their operand,
and `ERR` is set-only: no step but a `Reset` clears a bit of it. (An `INIT` issued a second time, so one in `IDLE`, is the spec's own
inference, 92_eei_decisions.md "Forms nothing in the source shows"; log 22.) -/
def Obligations.ControlRegistersHoldTheirFields : Prop :=
  (ControlRegister.number .ledcnt = 0 ∧ ControlRegister.number .brt = 1 ∧ ControlRegister.number .status = 2 ∧
    ControlRegister.number .err = 3) ∧
  (∀ s : State, s.cfg.ledCount ≤ 65535 → (s.controlRegister .ledcnt).toNat = s.cfg.ledCount) ∧
  (∀ s : State, (s.controlRegister .brt).toNat = s.brt.toNat ∧ (s.controlRegister .err).toNat = s.err.toNat ∧
    (s.controlRegister .status).toNat = s.phase.code.toNat + (if s.busy then 8 else 0) +
      (if s.txActive then 16 else 0) + (if s.faultLevel then 32 else 0) ∧
    s.phase.code.toNat ≤ 4) ∧
  (∀ (c : Config) (script : List Arrival), c.wf = true →
    ((State.started c script).controlRegister .ledcnt).toNat = c.ledCount ∧
    (State.started c script).controlRegister .brt = 100 ∧ (State.started c script).controlRegister .status = 0 ∧
    (State.started c script).controlRegister .err = 0) ∧
  (∀ s t : State, step s = .next t → t.controlRegister .ledcnt = s.controlRegister .ledcnt) ∧
  (∀ (s : State) (v : Byte), s.phase = .idle →
    ∃ t, exec (.setbrt v) s = .next t ∧ t.controlRegister .brt = v.zeroExtend 16) ∧
  (∀ (s : State) (b : Byte), s.phase = .uninit ∨ s.phase = .idle → b.toNat ≤ 100 →
    ∃ t, exec (.init b) s = .next t ∧ t.controlRegister .brt = b.zeroExtend 16) ∧
  (∀ s t : State, step s = .next t → s.arrivals.head? ≠ some .reset →
    s.controlRegister .err &&& t.controlRegister .err = s.controlRegister .err)

/-- R12: `BRT` changes only by a `Reset`, by an `INIT` to its operand, or by a `SETBRT` to its operand. -/
def Obligations.BrightnessChangesOnlyByInitOrSetbrt : Prop :=
  ∀ s t : State, step s = .next t → t.brt ≠ s.brt → s.arrivals.head? ≠ some .reset →
    ∃ rest, decode s.wordsSeen = .instr (.init t.brt) rest ∨ decode s.wordsSeen = .instr (.setbrt t.brt) rest

/-- R9, R143: a command, executed as one atomic change, emits exactly one event: its response, its phase unchanged; or, for a
successful `INIT` or `SHOW`, one frame, entering `TX`, whose `TxDone` will emit the response. -/
def Obligations.EachCommandEmitsOneEvent : Prop :=
  ∀ (i : Instr) (s t : State), s.phase = .uninit ∨ s.phase = .idle → s.cfg.level = .command → exec i s = .next t →
    (∃ r, t.outputs = s.outputs ++ [.resp r] ∧ t.phase = s.phase ∧ t.buf = s.buf) ∨
    (t.outputs = s.outputs ++ [.txStart t.frame] ∧ t.phase = .tx ∧ ∀ v, i ≠ .setbrt v)

/-- R9, R143, R145: the events emitted are only added to, at most one in a step: a response, the block idle or uninitialised
after it, or one frame, the whole buffer, exactly on entering `TX`. -/
def Obligations.EachStepEmitsAtMostOneEvent : Prop :=
  ∀ s t : State, step s = .next t →
    (t.outputs = s.outputs ∧ (t.phase = .tx → s.phase = .tx)) ∨
    (∃ r, t.outputs = s.outputs ++ [.resp r] ∧ (t.phase = .uninit ∨ t.phase = .idle)) ∨
    (t.outputs = s.outputs ++ [.txStart t.frame] ∧ s.phase ≠ .tx ∧ t.phase = .tx)

/-- R106: the transitions of the fill controller at the slot level; no other pair of phases is a transition. (A `Reset` during a
command, an `INIT` in `IDLE` and a `SHOW` with `n = 0` issued by the host are the spec's own inferences, 92_eei_decisions.md
"Forms nothing in the source shows"; log 22.) -/
def Obligations.PhasesMoveOnlyAsTheTableSays : Prop :=
  ∀ s t : State, s.cfg.level = .slot → 1 ≤ s.cfg.ledCount → step s = .next t → t.phase ≠ s.phase →
    (s.arrivals.head? = some .reset ∧ t.phase = .uninit) ∨
    ((s.phase = .uninit ∨ s.phase = .idle) ∧ t.phase = .off ∧ ∃ b rest,
      decode s.wordsSeen = .instr (.init b) rest ∧ b.toNat ≤ 100) ∨
    (s.phase = .idle ∧ t.phase = .enc ∧ ∃ ps rest, decode s.wordsSeen = .instr (.showPixels ps) rest ∧
      1 ≤ ps.length ∧ ps.length ≤ s.cfg.ledCount ∧ s.brt.toNat ≤ 100) ∨
    (s.phase = .idle ∧ t.phase = .off ∧ s.brt.toNat ≤ 100 ∧ ∃ rest,
      decode s.wordsSeen = .instr (.showPixels []) rest) ∨
    (s.phase = .enc ∧ t.phase = .off ∧ s.k = 11 ∧ s.i + 1 = s.npix ∧ s.npix < s.cfg.ledCount) ∨
    (s.phase = .enc ∧ t.phase = .tx ∧ s.k = 11 ∧ s.i + 1 = s.npix ∧ s.npix = s.cfg.ledCount ∧
      t.outputs = s.outputs ++ [.txStart t.frame]) ∨
    (s.phase = .off ∧ t.phase = .tx ∧ s.wp + 2 = 24 * s.cfg.ledCount ∧ t.outputs = s.outputs ++ [.txStart t.frame]) ∨
    (s.phase = .tx ∧ t.phase = .idle ∧ s.arrivals.head? = some .txDone ∧ t.outputs = s.outputs ++ [.resp .success])

/-- R162, R133: only an `INIT b` with `b <= 100` takes the block out of `UNINIT`; any other step from `UNINIT` stays there and
hands no frame over: it emits nothing or one response. -/
def Obligations.OnlyInitLeavesUninit : Prop :=
  ∀ s t : State, s.phase = .uninit → step s = .next t →
    (t.phase = .uninit ∧ (t.outputs = s.outputs ∨ ∃ r, t.outputs = s.outputs ++ [.resp r])) ∨
    ∃ b rest, decode s.wordsSeen = .instr (.init b) rest ∧ b.toNat ≤ 100 ∧ t.brt = b

/-- R26, R27: the invariant holds after reset, for every admitted configuration and whatever the outside world will do. R26
leaves the working latches unspecified: that the invariant's clause about `I`, `K`, `NPIX` and `PQ` holds at reset is the
model's choice, log 5 (DESIGN CHOICE, unsafe), which keeps to R27 (b) for `WP`. -/
def Obligations.InvariantHoldsAfterReset : Prop :=
  BlockInv State.reset ∧ ∀ (c : Config) (script : List Arrival), c.wf = true → BlockInv (State.started c script)

/-- R27, R17 to R19, R107, R108, R144: every step keeps the invariant of `Safety.lean`: the buffer has exactly its `24*N` bytes
once initialised, `WP` is even and in range, slots hold table symbols, the controller's preconditions hold, and in `TX` the
last event is the frame the buffer still holds. Outside a fill the spec gives the latches but `WP` (R27 (b)) no
value (R10, R26): that the clause about `I`, `K`, `NPIX` and `PQ` holds there is the model's choice, log 5 (DESIGN CHOICE, unsafe) after a `Reset`
and log 15 (DEDUCED) after the atomic command. -/
def Obligations.EveryStepKeepsTheInvariant : Prop :=
  ∀ s t : State, BlockInv s → step s = .next t → BlockInv t

/-- R36, R81, R107, R108: in a state that meets the invariant no step stops: no store is out of range, no scale out of its
domain, and every step answers a next state. -/
def Obligations.InvariantStatesNeverStop : Prop :=
  ∀ s : State, BlockInv s → ∃ t, step s = .next t

/-- Under any behaviour of the host and the transmitter, from reset, at either level of description, every run of every length
goes on and meets the invariant. That a run is a list of moves, one a step, is the model's choice, log 8 (DESIGN CHOICE); so
are the values the invariant's clause about the latches rests on outside a fill, log 5 (DESIGN CHOICE, unsafe) and log 15
(DEDUCED). -/
def Obligations.EveryRunGoesOnAndMeetsTheInvariant : Prop :=
  ∀ (c : Config) (script : List Arrival) (k : Nat), c.wf = true →
    ∃ t, core.run k (State.started c script) = .next t ∧ BlockInv t
end

