-- ==== Sys2Proof/Laws/Datapath.lean ====
section
/-! SUPPORT. Laws of the datapath's functions (40_datapath.md). -/

namespace Sys2Proof.Machine

theorem usableBrightness_eq_some {v : Byte} {b : Brightness} :
    usableBrightness v = some b ↔ v.toNat = b.val := by
  unfold usableBrightness
  split
  · simp [Fin.ext_iff]
  · next h => simp; omega

theorem usableBrightness_eq_none {v : Byte} : usableBrightness v = none ↔ 100 < v.toNat := by
  unfold usableBrightness
  split <;> simp <;> omega

/-- A brightness of at most 100 is usable. -/
theorem usableBrightness_of_le {v : Byte} (h : v.toNat ≤ 100) : ∃ b, usableBrightness v = some b :=
  ⟨⟨v.toNat, by omega⟩, usableBrightness_eq_some.2 rfl⟩

theorem scaleQuotient_le (c : Byte) (b : Brightness) : c.toNat * b.val / 100 ≤ c.toNat := by
  have : c.toNat * b.val ≤ c.toNat * 100 := Nat.mul_le_mul_left _ (by omega)
  omega

/-- `Scale` as a number: the quotient fits 8 bits (R70, R78). -/
@[simp] theorem scale_toNat (c : Byte) (b : Brightness) : (scale c b).toNat = c.toNat * b.val / 100 := by
  have h1 := scaleQuotient_le c b
  have h2 := c.isLt
  rw [scale, BitVec.toNat_ofNat]
  exact Nat.mod_eq_of_lt (by omega)

@[simp] theorem scale_zero (b : Brightness) : scale 0 b = 0 := by
  apply BitVec.eq_of_toNat_eq; simp

/-- A group as arithmetic (R72). -/
theorem group_toNat (s : Byte) (j : Fin 4) : (group s j).toNat = s.toNat / 2 ^ (6 - 2 * j.val) % 4 := by
  simp [group, BitVec.extractLsb'_toNat, Nat.shiftRight_eq_div_pow]

/-- The scaled word as a number (R74). -/
theorem scaleGRB_toNat (p : Pixel) (b : Brightness) :
    (scaleGRB p b).toNat = (scale p.g b).toNat * 65536 + (scale p.r b).toNat * 256 + (scale p.b b).toNat := by
  have hg := (scale p.g b).isLt
  have hr := (scale p.r b).isLt
  have hb := (scale p.b b).isLt
  rw [scaleGRB, BitVec.toNat_ofNat]
  exact Nat.mod_eq_of_lt (by omega)

/-- The group of a slot as arithmetic (R74). -/
theorem slotOfScaled_toNat (sc : BitVec 24) (k : Nat) : (slotOfScaled sc k).toNat = sc.toNat / 2 ^ (22 - 2 * k) % 4 := by
  simp [slotOfScaled, BitVec.extractLsb'_toNat, Nat.shiftRight_eq_div_pow]

@[simp] theorem encodePixel_length (c : Config) (p : Pixel) (b : Brightness) : (encodePixel c p b).length = 12 := rfl

/-- Slot `k` of an encoded pixel (R75). -/
theorem encodePixel_getElem? (c : Config) (p : Pixel) (b : Brightness) {k : Nat} (h : k < 12) :
    (encodePixel c p b)[k]? = some (lookup c (slotGroup p b k)) := by
  simp [encodePixel, h]

@[simp] theorem lookup_zero (c : Config) : lookup c 0 = offSymbol c := rfl

end Sys2Proof.Machine
end

