-- ==== Sys2Proof/Laws/Decode.lean ====
section
/-! SUPPORT. Laws of the decoder's fields and of its cases (30_encoding.md). -/

namespace Sys2Proof

/-! Fields as arithmetic (R6, R51, R52). -/

theorem opField_toNat (w : Word) : (opField w).toNat = w.toNat / 2 ^ 24 := by
  simp only [opField, BitVec.extractLsb'_toNat, Nat.shiftRight_eq_div_pow]
  have := w.isLt; omega

theorem zField_toNat (w : Word) : (zField w).toNat = w.toNat / 2 ^ 16 % 256 := by
  simp [zField, BitVec.extractLsb'_toNat, Nat.shiftRight_eq_div_pow]

theorem hiField_toNat (w : Word) : (hiField w).toNat = w.toNat / 2 ^ 8 % 256 := by
  simp [hiField, BitVec.extractLsb'_toNat, Nat.shiftRight_eq_div_pow]

theorem loField_toNat (w : Word) : (loField w).toNat = w.toNat % 256 := by
  simp [loField, BitVec.extractLsb'_toNat]

theorem countField_eq (w : Word) : countField w = w.toNat % 65536 := by
  simp [countField, BitVec.extractLsb'_toNat]

theorem field_eq_iff {f : BitVec 8} {n : Nat} (h : n < 256) : f = BitVec.ofNat 8 n ↔ f.toNat = n := by
  constructor
  · rintro rfl; simpa using h
  · intro e; apply BitVec.eq_of_toNat_eq; rw [e, BitVec.toNat_ofNat, Nat.mod_eq_of_lt h]

/-- The opcode of a word is `n`. -/
theorem opField_eq_iff {w : Word} {n : Nat} (hn : n < 256) : opField w = BitVec.ofNat 8 n ↔ w.toNat / 2 ^ 24 = n := by
  rw [field_eq_iff hn, opField_toNat]

theorem field_eq_zero_iff {f : BitVec 8} : f = 0 ↔ f.toNat = 0 := field_eq_iff (n := 0) (by decide)

theorem zField_eq_zero_iff {w : Word} : zField w = 0 ↔ w.toNat / 2 ^ 16 % 2 ^ 8 = 0 := by
  rw [field_eq_zero_iff, zField_toNat]
  omega

/-- Both reserved fields of an `INIT` or `SETBRT` word are zero. -/
theorem reserved_eq_zero_iff {w : Word} : (zField w = 0 ∧ hiField w = 0) ↔ w.toNat / 2 ^ 8 % 2 ^ 16 = 0 := by
  rw [field_eq_zero_iff, field_eq_zero_iff, zField_toNat, hiField_toNat]
  omega

theorem loField_eq (w : Word) : loField w = BitVec.ofNat 8 w.toNat := by
  apply BitVec.eq_of_toNat_eq; rw [loField_toNat, BitVec.toNat_ofNat]

theorem pixelOfWord_eq (w : Word) : pixelOfWord w =
    { r := BitVec.ofNat 8 (w.toNat / 2 ^ 16), g := BitVec.ofNat 8 (w.toNat / 2 ^ 8), b := BitVec.ofNat 8 w.toNat } := by
  simp only [pixelOfWord, Pixel.mk.injEq]
  refine ⟨?_, ?_, loField_eq w⟩ <;> apply BitVec.eq_of_toNat_eq
  · rw [zField_toNat, BitVec.toNat_ofNat]
  · rw [hiField_toNat, BitVec.toNat_ofNat]

theorem pixelWordLegal_iff {w : Word} : pixelWordLegal w = true ↔ w.toNat / 2 ^ 24 = 0 := by
  rw [pixelWordLegal, beq_iff_eq]; exact opField_eq_iff (n := 0) (by decide)

/-! The words the encoder writes, as numbers (R54). -/

theorem initWord_toNat (b : Byte) : (BitVec.ofNat 32 (0x01000000 + b.toNat)).toNat = 0x01000000 + b.toNat := by
  have := b.isLt; rw [BitVec.toNat_ofNat]; omega

theorem setbrtWord_toNat (v : Byte) : (BitVec.ofNat 32 (0x02000000 + v.toNat)).toNat = 0x02000000 + v.toNat := by
  have := v.isLt; rw [BitVec.toNat_ofNat]; omega

theorem showWord_toNat {n : Nat} (h : n ≤ 65535) : (BitVec.ofNat 32 (0x03000000 + n)).toNat = 0x03000000 + n := by
  rw [BitVec.toNat_ofNat]; omega

/-! The decoder by the fields of the first word (R58). -/

@[simp] theorem decode_nil : decode [] = .incomplete := rfl

theorem decode_init {w : Word} (q : List Word) (h : opField w = 0x01) :
    decode (w :: q) = if zField w = 0 ∧ hiField w = 0 then .instr (.init (loField w)) q else .illegal .reservedNotZero q := by
  simp [decode, h]

theorem decode_setbrt {w : Word} (q : List Word) (h : opField w = 0x02) :
    decode (w :: q) = if zField w = 0 ∧ hiField w = 0 then .instr (.setbrt (loField w)) q else .illegal .reservedNotZero q := by
  simp [decode, h]

theorem decode_show {w : Word} (q : List Word) (h : opField w = 0x03) :
    decode (w :: q) = if zField w = 0 then decodePixels (countField w) q else .illegal .reservedNotZero q := by
  simp [decode, h]

theorem decode_undefined {w : Word} (q : List Word) (h1 : opField w ≠ 0x01) (h2 : opField w ≠ 0x02) (h3 : opField w ≠ 0x03) :
    decode (w :: q) = .illegal .undefinedOpcode q := by
  rw [decode, if_neg h1, if_neg h2, if_neg h3]

/-! Pixel operand words (R52). -/

theorem encodePixelWord_toNat (p : Pixel) :
    (encodePixelWord p).toNat = p.r.toNat * 65536 + p.g.toNat * 256 + p.b.toNat := by
  have := p.r.isLt; have := p.g.isLt; have := p.b.isLt
  rw [encodePixelWord, BitVec.toNat_ofNat]
  exact Nat.mod_eq_of_lt (by omega)

@[simp] theorem pixelWordLegal_encodePixelWord (p : Pixel) : pixelWordLegal (encodePixelWord p) = true := by
  have := p.r.isLt; have := p.g.isLt; have := p.b.isLt
  have h : opField (encodePixelWord p) = BitVec.ofNat 8 0 :=
    (field_eq_iff (by omega)).2 (by rw [opField_toNat, encodePixelWord_toNat]; omega)
  simp [pixelWordLegal, h]

@[simp] theorem pixelOfWord_encodePixelWord (p : Pixel) : pixelOfWord (encodePixelWord p) = p := by
  have := p.r.isLt; have := p.g.isLt; have := p.b.isLt
  obtain ⟨r, g, b⟩ := p
  simp only [pixelOfWord, Pixel.mk.injEq]
  refine ⟨?_, ?_, ?_⟩ <;> apply BitVec.eq_of_toNat_eq
  · rw [zField_toNat, encodePixelWord_toNat]; simp only at *; omega
  · rw [hiField_toNat, encodePixelWord_toNat]; simp only at *; omega
  · rw [loField_toNat, encodePixelWord_toNat]; simp only at *; omega

/-- A legal pixel word is the word of its pixel (R52: no bit of it is ignored). -/
theorem encodePixelWord_pixelOfWord {w : Word} (h : pixelWordLegal w = true) : encodePixelWord (pixelOfWord w) = w := by
  have h0 : (opField w).toNat = 0 := by simpa [pixelWordLegal] using congrArg BitVec.toNat (eq_of_beq h)
  rw [opField_toNat] at h0
  apply BitVec.eq_of_toNat_eq
  rw [encodePixelWord_toNat]
  simp only [pixelOfWord, zField_toNat, hiField_toNat, loField_toNat]
  have := w.isLt
  omega

/-- The operand words of a `SHOW` decode to their pixels (R58). -/
theorem decodePixels_map_encode (ps : List Pixel) (rest : List Word) :
    decodePixels ps.length (ps.map encodePixelWord ++ rest) = .instr (.showPixels ps) rest := by
  have hlen : (ps.map encodePixelWord).length = ps.length := List.length_map _
  have htake : (ps.map encodePixelWord ++ rest).take ps.length = ps.map encodePixelWord := by
    rw [← hlen, List.take_left]
  have hdrop : (ps.map encodePixelWord ++ rest).drop ps.length = rest := by rw [← hlen, List.drop_left]
  rw [decodePixels, if_neg (by simp), htake, hdrop, if_pos (by simp)]
  simp [Function.comp_def]

end Sys2Proof
end

