-- ==== Sys2Proof/Laws/Memory.lean ====
section
/-! SUPPORT. Laws of the buffer's byte reads and writes, of the stores built from them, and of the canonical form. -/

namespace Sys2Proof.Machine

/-! Reads and writes of one byte. -/

@[simp] theorem Memory.read_nil (a : Nat) : Memory.read [] a = none := rfl

@[simp] theorem Memory.read_write_same (m : Memory) (a : Nat) (v : Byte) : (m.write a v).read a = some v := by
  induction m with
  | nil => simp [Memory.write, Memory.read]
  | cons c m ih =>
    obtain ⟨x, b⟩ := c
    rw [Memory.write]
    split
    · simp [Memory.read]
    · split
      · simp [Memory.read]
      · next h => simp [Memory.read, Ne.symm h, ih]

theorem Memory.read_write_other (m : Memory) {a b : Nat} (v : Byte) (h : b ≠ a) :
    (m.write a v).read b = m.read b := by
  induction m with
  | nil => simp [Memory.write, Memory.read, Ne.symm h]
  | cons c m ih =>
    obtain ⟨x, y⟩ := c
    rw [Memory.write]
    split
    · rw [Memory.read, if_neg (Ne.symm h)]
    · split
      · next hx => subst hx; simp [Memory.read, Ne.symm h]
      · simp only [Memory.read, ih]

theorem Memory.read_write (m : Memory) (a b : Nat) (v : Byte) :
    (m.write a v).read b = if b = a then some v else m.read b := by
  by_cases h : b = a
  · simp [h]
  · simp [h, Memory.read_write_other m v h]

/-- An offset of the written memory is the written one or was there before. -/
theorem Memory.mem_write_offset {m : Memory} {a : Nat} {v : Byte} {c : Host.Cell} (h : c ∈ m.write a v) :
    c.1 = a ∨ ∃ d ∈ m, d.1 = c.1 := by
  induction m with
  | nil => simp [Memory.write] at h; simp [h]
  | cons d m ih =>
    obtain ⟨x, y⟩ := d
    rw [Memory.write] at h
    split at h
    · rcases List.mem_cons.1 h with rfl | h
      · exact .inl rfl
      · exact .inr ⟨c, h, rfl⟩
    · split at h
      · rcases List.mem_cons.1 h with rfl | h
        · exact .inl rfl
        · exact .inr ⟨c, List.mem_cons_of_mem _ h, rfl⟩
      · rcases List.mem_cons.1 h with rfl | h
        · exact .inr ⟨_, List.mem_cons_self, rfl⟩
        · rcases ih h with h | ⟨e, he, h⟩
          · exact .inl h
          · exact .inr ⟨e, List.mem_cons_of_mem _ he, h⟩

/-- A write keeps the canonical form. -/
theorem Memory.write_wf {m : Memory} (a : Nat) (v : Byte) (h : m.wf) : (m.write a v).wf := by
  induction m with
  | nil => simp [Memory.write, Memory.wf]
  | cons c m ih =>
    obtain ⟨x, y⟩ := c
    have hc := List.pairwise_cons.1 h
    rw [Memory.write]
    split
    · next ha =>
      refine List.pairwise_cons.2 ⟨fun d hd => ?_, h⟩
      rcases List.mem_cons.1 hd with rfl | hd
      · exact ha
      · exact lt_trans ha (hc.1 d hd)
    · split
      · next hx => subst hx; exact List.pairwise_cons.2 ⟨hc.1, hc.2⟩
      · next h1 h2 =>
        refine List.pairwise_cons.2 ⟨fun d hd => ?_, ih hc.2⟩
        rcases Memory.mem_write_offset hd with hd | ⟨e, he, hd⟩
        · simp only [hd]; omega
        · exact hd ▸ hc.1 e he

/-- A read of an offset below all of a memory finds nothing. -/
theorem Memory.read_eq_none_of_lt {m : Memory} {a : Nat} (h : ∀ c ∈ m, a < c.1) : m.read a = none := by
  induction m with
  | nil => rfl
  | cons c m ih =>
    obtain ⟨x, y⟩ := c
    have hx : a < x := h (x, y) List.mem_cons_self
    rw [Memory.read, if_neg (by omega)]
    exact ih fun d hd => h d (List.mem_cons_of_mem _ hd)

/-- Canonical memories that read alike are the same list. -/
theorem Memory.ext_read {m n : Memory} (hm : m.wf) (hn : n.wf) (h : ∀ a, m.read a = n.read a) : m = n := by
  induction m generalizing n with
  | nil =>
    cases n with
    | nil => rfl
    | cons d n => obtain ⟨x, y⟩ := d; have := h x; simp [Memory.read] at this
  | cons c m ih =>
    obtain ⟨x, y⟩ := c
    have hc := List.pairwise_cons.1 hm
    cases n with
    | nil => have := h x; simp [Memory.read] at this
    | cons d n =>
      obtain ⟨x', y'⟩ := d
      have hd := List.pairwise_cons.1 hn
      have e1 := h x
      have e2 := h x'
      simp only [Memory.read, if_true] at e1 e2
      have hxx : x = x' := by
        by_contra hne
        rw [if_neg (Ne.symm hne)] at e1
        rw [if_neg hne] at e2
        rcases Nat.lt_or_gt_of_ne hne with hlt | hlt
        · rw [Memory.read_eq_none_of_lt fun c hc' => lt_trans hlt (hd.1 c hc')] at e1
          cases e1
        · rw [Memory.read_eq_none_of_lt fun c hc' => lt_trans hlt (hc.1 c hc')] at e2
          cases e2
      subst hxx
      simp only [if_true, Option.some.injEq] at e1
      subst e1
      congr 1
      refine ih hc.2 hd.2 fun a => ?_
      by_cases ha : x = a
      · subst ha
        rw [Memory.read_eq_none_of_lt fun c hc' => hc.1 c hc', Memory.read_eq_none_of_lt fun c hc' => hd.1 c hc']
      · have := h a
        simpa [Memory.read, ha] using this

/-- The offsets of a memory after a write. -/
theorem Memory.offsets_write_of_mem {m : Memory} (hm : m.wf) {a : Nat} (v : Byte) (h : a ∈ m.map Prod.fst) :
    (m.write a v).map Prod.fst = m.map Prod.fst := by
  induction m with
  | nil => simp at h
  | cons c m ih =>
    obtain ⟨x, y⟩ := c
    have hc := List.pairwise_cons.1 hm
    rw [Memory.write]
    simp only [List.map_cons, List.mem_cons] at h
    by_cases hax : a = x
    · simp [hax]
    · have hmem := h.resolve_left hax
      obtain ⟨d, hd, rfl⟩ := List.mem_map.1 hmem
      have := hc.1 d hd
      rw [if_neg (by simp at this; omega), if_neg hax, List.map_cons, ih hc.2 hmem, List.map_cons]

/-- A write past the end of a memory adds its offset last. -/
theorem Memory.offsets_write_of_gt {m : Memory} {a : Nat} (v : Byte) (h : ∀ x ∈ m.map Prod.fst, x < a) :
    (m.write a v).map Prod.fst = m.map Prod.fst ++ [a] := by
  induction m with
  | nil => rfl
  | cons c m ih =>
    obtain ⟨x, y⟩ := c
    have hx : x < a := h x (by simp)
    rw [Memory.write, if_neg (by omega), if_neg (by omega), List.map_cons, ih fun z hz => h z (by simp_all)]
    rfl

/-- The canonical form is a fact about the offsets. -/
theorem Memory.wf_iff_offsets (m : Memory) : m.wf ↔ (m.map Prod.fst).Pairwise (· < ·) := by
  simp [Memory.wf, List.pairwise_map]

/-! The symbol store (R33). -/

theorem symStore_wf {c : Config} {m : Memory} (a : Nat) (s : Symbol) (h : m.wf) : (symStore c m a s).wf := by
  unfold symStore
  split
  · exact Memory.write_wf _ _ (Memory.write_wf _ _ h)
  · exact Memory.write_wf _ _ h

@[simp] theorem symStore_read_even (c : Config) (m : Memory) (a : Nat) (s : Symbol) :
    (symStore c m a s).read a = some (lowByte s) := by
  unfold symStore
  split
  · rw [Memory.read_write_other _ _ (by omega), Memory.read_write_same]
  · exact Memory.read_write_same _ _ _

theorem symStore_read_odd (c : Config) (m : Memory) (a : Nat) (s : Symbol) :
    (symStore c m a s).read (a + 1) = if c.storeMode = .full16 then some (highByte s) else m.read (a + 1) := by
  unfold symStore
  split
  · next h => simp [h]
  · next h => simp [h, Memory.read_write_other _ _ (show a + 1 ≠ a by omega)]

theorem symStore_read_other (c : Config) (m : Memory) {a x : Nat} (s : Symbol) (h : x ≠ a) (h' : x ≠ a + 1) :
    (symStore c m a s).read x = m.read x := by
  unfold symStore
  split
  · rw [Memory.read_write_other _ _ h', Memory.read_write_other _ _ h]
  · exact Memory.read_write_other _ _ h

theorem symStore_offsets {c : Config} {m : Memory} (hm : m.wf) {a : Nat} (s : Symbol)
    (h : a ∈ m.map Prod.fst) (h' : a + 1 ∈ m.map Prod.fst) :
    (symStore c m a s).map Prod.fst = m.map Prod.fst := by
  unfold symStore
  split
  · rw [Memory.offsets_write_of_mem (Memory.write_wf _ _ hm), Memory.offsets_write_of_mem hm _ h]
    rwa [Memory.offsets_write_of_mem hm _ h]
  · exact Memory.offsets_write_of_mem hm _ h

/-! The clear (R35). -/

theorem clearBytes_wf {m : Memory} (a n : Nat) (h : m.wf) : (clearBytes m a n).wf := by
  induction n generalizing m a with
  | zero => exact h
  | succ n ih => exact ih _ (Memory.write_wf _ _ h)

theorem clearBytes_read (m : Memory) (a n x : Nat) :
    (clearBytes m a n).read x = if a ≤ x ∧ x < a + n then some 0 else m.read x := by
  induction n generalizing m a with
  | zero => simp [clearBytes, show ¬(a ≤ x ∧ x < a) by omega]
  | succ n ih =>
    rw [clearBytes, ih, Memory.read_write]
    by_cases hx : x = a
    · subst hx; simp
    · by_cases h : a ≤ x ∧ x < a + (n + 1)
      · simp [h, show a + 1 ≤ x ∧ x < a + 1 + n by omega]
      · rw [if_neg (by omega), if_neg hx, if_neg h]

/-- Clearing past the end of a memory that lists the first `a` offsets. -/
theorem clearBytes_offsets_append {m : Memory} {a : Nat} (n : Nat) (h : m.map Prod.fst = List.range a) :
    (clearBytes m a n).map Prod.fst = List.range (a + n) := by
  induction n generalizing m a with
  | zero => simpa [clearBytes] using h
  | succ n ih =>
    rw [clearBytes, ih (m := m.write a 0) (a := a + 1), Nat.add_right_comm, Nat.add_assoc]
    rw [Memory.offsets_write_of_gt _ (by simp [h]), h, List.range_succ]

/-- Clearing bytes that are all there adds no offset. -/
theorem clearBytes_offsets_same {m : Memory} {a n : Nat} (hm : m.wf)
    (h : ∀ x, a ≤ x → x < a + n → x ∈ m.map Prod.fst) : (clearBytes m a n).map Prod.fst = m.map Prod.fst := by
  induction n generalizing m a with
  | zero => rfl
  | succ n ih =>
    have e := Memory.offsets_write_of_mem hm 0 (h a le_rfl (by omega))
    rw [clearBytes, ih (Memory.write_wf _ _ hm), e]
    intro x hx hx'
    rw [e]
    exact h x (by omega) (by omega)

/-- After a clear the buffer has exactly its `24*N` bytes, whether it had none before or all. -/
theorem bufClear_offsets {c : Config} {m : Memory} (h : m = [] ∨ m.map Prod.fst = List.range (bufLen c)) :
    (bufClear c m).map Prod.fst = List.range (bufLen c) := by
  rcases h with rfl | h
  · simpa [bufClear] using clearBytes_offsets_append (m := []) (a := 0) (bufLen c) rfl
  · have hm : m.wf := (Memory.wf_iff_offsets m).2 (h ▸ List.pairwise_lt_range)
    rw [bufClear, clearBytes_offsets_same hm, h]
    intro x _ hx
    simpa [h] using hx

theorem bufClear_wf {c : Config} {m : Memory} (h : m.wf) : (bufClear c m).wf := clearBytes_wf _ _ h

theorem bufClear_read (c : Config) (m : Memory) (x : Nat) :
    (bufClear c m).read x = if x < bufLen c then some 0 else m.read x := by
  simp [bufClear, clearBytes_read]

/-- `MemWrite` keeps the canonical form. -/
theorem memWrite_wf {m : Memory} (a n v : Nat) (h : m.wf) : (memWrite m a n v).wf := by
  induction n generalizing m a v with
  | zero => exact h
  | succ n ih => exact ih _ _ (Memory.write_wf _ _ h)

/-- The buffer has the canonical form after reset. -/
theorem resetWith_buf_wf (c : Config) : (State.resetWith c).buf.wf := List.Pairwise.nil

theorem reset_buf_wf : State.reset.buf.wf := resetWith_buf_wf Config.asBuilt

end Sys2Proof.Machine
end

