-- ==== Sys2Proof/Laws/Fill.lean ====
section
/-! SUPPORT. Laws of the fill (R102, R103): both loops are one run of symbol stores, and what every byte holds after it. -/

namespace Sys2Proof.Machine

/-! A run of symbol stores. -/

@[simp] theorem storeSlots_nil (c : Config) (m : Memory) (a : Nat) : storeSlots c m a [] = m := rfl

theorem storeSlots_append (c : Config) (m : Memory) (a : Nat) (ss ts : List Symbol) :
    storeSlots c m a (ss ++ ts) = storeSlots c (storeSlots c m a ss) (a + 2 * ss.length) ts := by
  induction ss generalizing m a with
  | nil => rfl
  | cons s ss ih =>
    rw [List.cons_append, storeSlots, ih, storeSlots, List.length_cons]
    congr 1
    omega

/-- A run of stores grows at its end by one symbol store. -/
theorem storeSlots_snoc (c : Config) (m : Memory) (a : Nat) (ss : List Symbol) (s : Symbol) :
    storeSlots c m a (ss ++ [s]) = symStore c (storeSlots c m a ss) (a + 2 * ss.length) s := by
  rw [storeSlots_append]; rfl

theorem storeSlots_wf {c : Config} {m : Memory} (a : Nat) (ss : List Symbol) (h : m.wf) :
    (storeSlots c m a ss).wf := by
  induction ss generalizing m a with
  | nil => exact h
  | cons s ss ih => exact ih _ (symStore_wf _ _ h)

/-- A run of stores leaves every byte outside its slots alone. -/
theorem storeSlots_read_other (c : Config) (m : Memory) {a x : Nat} (ss : List Symbol)
    (h : x < a ∨ a + 2 * ss.length ≤ x) : (storeSlots c m a ss).read x = m.read x := by
  induction ss generalizing m a with
  | nil => rfl
  | cons s ss ih =>
    simp only [List.length_cons] at h
    rw [storeSlots, ih _ (by omega), symStore_read_other _ _ _ (by omega) (by omega)]

/-- The even byte of slot `j` of a run of stores. -/
theorem storeSlots_read_even (c : Config) (m : Memory) (a : Nat) (ss : List Symbol) {j : Nat} (h : j < ss.length) :
    (storeSlots c m a ss).read (a + 2 * j) = some (lowByte ss[j]) := by
  induction ss generalizing m a j with
  | nil => simp at h
  | cons s ss ih =>
    rw [storeSlots]
    cases j with
    | zero => rw [storeSlots_read_other _ _ _ (by omega)]; exact symStore_read_even _ _ _ _
    | succ j =>
      rw [show a + 2 * (j + 1) = a + 2 + 2 * j by omega, ih _ _ (Nat.lt_of_succ_lt_succ h)]
      rfl

/-- The odd byte of slot `j` of a run of stores (R33). -/
theorem storeSlots_read_odd (c : Config) (m : Memory) (a : Nat) (ss : List Symbol) {j : Nat} (h : j < ss.length) :
    (storeSlots c m a ss).read (a + 2 * j + 1) =
      if c.storeMode = .full16 then some (highByte ss[j]) else m.read (a + 2 * j + 1) := by
  induction ss generalizing m a j with
  | nil => simp at h
  | cons s ss ih =>
    rw [storeSlots]
    cases j with
    | zero => rw [storeSlots_read_other _ _ _ (by omega)]; exact symStore_read_odd _ _ _ _
    | succ j =>
      rw [show a + 2 * (j + 1) + 1 = a + 2 + 2 * j + 1 by omega, ih _ _ (Nat.lt_of_succ_lt_succ h),
        symStore_read_other _ _ _ (by omega) (by omega)]
      rfl

/-- A run of stores inside a buffer whose bytes are all there adds no offset. -/
theorem storeSlots_offsets {c : Config} {m : Memory} {a n : Nat} {ss : List Symbol}
    (h : m.map Prod.fst = List.range n) (hn : a + 2 * ss.length ≤ n) :
    (storeSlots c m a ss).map Prod.fst = List.range n := by
  induction ss generalizing m a with
  | nil => exact h
  | cons s ss ih =>
    simp only [List.length_cons] at hn
    have hm : m.wf := (Memory.wf_iff_offsets m).2 (h ▸ List.pairwise_lt_range)
    refine ih ?_ (by omega)
    rw [symStore_offsets hm _ (by simp [h]; omega) (by simp [h]; omega), h]

/-! The fill as one run of stores. -/

/-- The symbols of a fill, slot 0 of LED 0 first. -/
def fillSymbols (c : Config) (b : Brightness) (ps : List Pixel) : List Symbol :=
  ps.flatMap (fun p => encodePixel c p b) ++ List.replicate (12 * (c.ledCount - ps.length)) (offSymbol c)

theorem litSymbols_length (c : Config) (b : Brightness) (ps : List Pixel) :
    (ps.flatMap (fun p => encodePixel c p b)).length = 12 * ps.length := by
  induction ps with
  | nil => rfl
  | cons p ps ih => simp only [List.flatMap_cons, List.length_append, ih, encodePixel_length, List.length_cons]; omega

theorem fillSymbols_length {c : Config} {b : Brightness} {ps : List Pixel} (h : ps.length ≤ c.ledCount) :
    (fillSymbols c b ps).length = slotCount c := by
  simp only [fillSymbols, List.length_append, litSymbols_length, List.length_replicate, slotCount]
  omega

theorem fillLit_eq_storeSlots (c : Config) (b : Brightness) (m : Memory) (i : Nat) (ps : List Pixel) :
    fillLit c b m i ps = storeSlots c m (24 * i) (ps.flatMap (fun p => encodePixel c p b)) := by
  induction ps generalizing m i with
  | nil => rfl
  | cons p ps ih =>
    rw [fillLit, ih, List.flatMap_cons, storeSlots_append, encodePixel_length]
    rfl

theorem fillOff_eq_storeSlots (c : Config) (m : Memory) (a n : Nat) :
    fillOff c m a n = storeSlots c m a (List.replicate n (offSymbol c)) := by
  induction n generalizing m a with
  | zero => rfl
  | succ n ih => rw [fillOff, ih, List.replicate_succ, storeSlots]

/-- `Fill` is the run of its symbols' stores from offset 0 on (R102). -/
theorem fill_eq_storeSlots (c : Config) (b : Brightness) (ps : List Pixel) (m : Memory) :
    fill c b ps m = storeSlots c m 0 (fillSymbols c b ps) := by
  rw [fill, fillLit_eq_storeSlots, fillOff_eq_storeSlots, fillSymbols, storeSlots_append, litSymbols_length]
  congr 1
  simp only [slotAddr]; omega

theorem litSymbols_getElem? (c : Config) (b : Brightness) (ps : List Pixel) {j : Nat} (h : j < 12 * ps.length) :
    (ps.flatMap (fun p => encodePixel c p b))[j]? = some (filledSymbol c b ps (j / 12) (j % 12)) := by
  induction ps generalizing j with
  | nil => simp at h
  | cons p ps ih =>
    rw [List.flatMap_cons]
    by_cases hj : j < 12
    · rw [List.getElem?_append_left (by simpa using hj), encodePixel_getElem? _ _ _ hj, Nat.div_eq_of_lt hj, Nat.mod_eq_of_lt hj]
      rfl
    · simp only [List.length_cons] at h
      rw [List.getElem?_append_right (by rw [encodePixel_length]; omega), encodePixel_length, ih (by omega),
        show j / 12 = (j - 12) / 12 + 1 by omega, show j % 12 = (j - 12) % 12 by omega]
      simp [filledSymbol]

/-- The symbol of each slot of a fill (R103). -/
theorem fillSymbols_getElem {c : Config} {b : Brightness} {ps : List Pixel} {j : Nat} (hj : j < (fillSymbols c b ps).length) :
    (fillSymbols c b ps)[j] = filledSymbol c b ps (j / 12) (j % 12) := by
  apply Option.some.inj
  rw [← List.getElem?_eq_getElem hj]
  by_cases h : j < 12 * ps.length
  · rw [fillSymbols, List.getElem?_append_left (by rwa [litSymbols_length]), litSymbols_getElem? _ _ _ h]
  · simp only [fillSymbols, List.length_append, litSymbols_length, List.length_replicate] at hj
    rw [fillSymbols, List.getElem?_append_right (by rw [litSymbols_length]; omega), litSymbols_length,
      List.getElem?_replicate, if_pos (by omega), filledSymbol, List.getElem?_eq_none (by omega)]

theorem fill_wf {c : Config} {b : Brightness} {ps : List Pixel} {m : Memory} (h : m.wf) : (fill c b ps m).wf := by
  rw [fill_eq_storeSlots]; exact storeSlots_wf _ _ h

/-- The even byte of each slot after a fill (R103). -/
theorem fill_read_even {c : Config} {b : Brightness} {ps : List Pixel} (m : Memory) {j : Nat}
    (h : ps.length ≤ c.ledCount) (hj : j < slotCount c) :
    (fill c b ps m).read (2 * j) = some (lowByte (filledSymbol c b ps (j / 12) (j % 12))) := by
  have hj' : j < (fillSymbols c b ps).length := by rwa [fillSymbols_length h]
  have := storeSlots_read_even c m 0 (fillSymbols c b ps) hj'
  rwa [Nat.zero_add, fillSymbols_getElem hj', ← fill_eq_storeSlots] at this

/-- The odd byte of each slot after a fill (R103): the high byte under `FULL16`, unchanged under `LOW8`. -/
theorem fill_read_odd {c : Config} {b : Brightness} {ps : List Pixel} (m : Memory) {j : Nat}
    (h : ps.length ≤ c.ledCount) (hj : j < slotCount c) :
    (fill c b ps m).read (2 * j + 1) =
      if c.storeMode = .full16 then some (highByte (filledSymbol c b ps (j / 12) (j % 12)))
      else m.read (2 * j + 1) := by
  have hj' : j < (fillSymbols c b ps).length := by rwa [fillSymbols_length h]
  have := storeSlots_read_odd c m 0 (fillSymbols c b ps) hj'
  rwa [Nat.zero_add, fillSymbols_getElem hj', ← fill_eq_storeSlots] at this

/-- A fill leaves every byte beyond the buffer alone (R36). -/
theorem fill_read_beyond {c : Config} {b : Brightness} {ps : List Pixel} (m : Memory) {x : Nat}
    (h : ps.length ≤ c.ledCount) (hx : bufLen c ≤ x) : (fill c b ps m).read x = m.read x := by
  rw [fill_eq_storeSlots, storeSlots_read_other _ _ _ (by rw [fillSymbols_length h, slotCount]; rw [bufLen] at hx; omega)]

/-- A fill keeps the buffer's extent. -/
theorem fill_offsets {c : Config} {b : Brightness} {ps : List Pixel} {m : Memory}
    (hm : m.map Prod.fst = List.range (bufLen c)) (h : ps.length ≤ c.ledCount) :
    (fill c b ps m).map Prod.fst = List.range (bufLen c) := by
  rw [fill_eq_storeSlots]
  exact storeSlots_offsets hm (by rw [fillSymbols_length h, slotCount, bufLen]; omega)

end Sys2Proof.Machine
end

