-- ==== Sys2Proof/Laws/State.lean ====
section
/-! SUPPORT. One lemma per field per update of the state, true by definition, so that no proof unfolds a record. -/

namespace Sys2Proof.Machine

/-! `emit`. -/

@[simp] theorem State.emit_cfg (s : State) (o : Output) : (s.emit o).cfg = s.cfg := rfl
@[simp] theorem State.emit_brt (s : State) (o : Output) : (s.emit o).brt = s.brt := rfl
@[simp] theorem State.emit_buf (s : State) (o : Output) : (s.emit o).buf = s.buf := rfl
@[simp] theorem State.emit_phase (s : State) (o : Output) : (s.emit o).phase = s.phase := rfl
@[simp] theorem State.emit_err (s : State) (o : Output) : (s.emit o).err = s.err := rfl
@[simp] theorem State.emit_wp (s : State) (o : Output) : (s.emit o).wp = s.wp := rfl
@[simp] theorem State.emit_i (s : State) (o : Output) : (s.emit o).i = s.i := rfl
@[simp] theorem State.emit_k (s : State) (o : Output) : (s.emit o).k = s.k := rfl
@[simp] theorem State.emit_sc (s : State) (o : Output) : (s.emit o).sc = s.sc := rfl
@[simp] theorem State.emit_bl (s : State) (o : Output) : (s.emit o).bl = s.bl := rfl
@[simp] theorem State.emit_npix (s : State) (o : Output) : (s.emit o).npix = s.npix := rfl
@[simp] theorem State.emit_pq (s : State) (o : Output) : (s.emit o).pq = s.pq := rfl
@[simp] theorem State.emit_rx (s : State) (o : Output) : (s.emit o).rx = s.rx := rfl
@[simp] theorem State.emit_cmdPort (s : State) (o : Output) : (s.emit o).cmdPort = s.cmdPort := rfl
@[simp] theorem State.emit_arrivals (s : State) (o : Output) : (s.emit o).arrivals = s.arrivals := rfl
@[simp] theorem State.emit_outputs (s : State) (o : Output) : (s.emit o).outputs = s.outputs ++ [o] := rfl
@[simp] theorem State.emit_resets (s : State) (o : Output) : (s.emit o).resets = s.resets := rfl

/-! `raiseFault` (R136). -/

@[simp] theorem raiseFault_cfg (c : FaultCause) (s : State) : (raiseFault c s).cfg = s.cfg := rfl
@[simp] theorem raiseFault_brt (c : FaultCause) (s : State) : (raiseFault c s).brt = s.brt := rfl
@[simp] theorem raiseFault_buf (c : FaultCause) (s : State) : (raiseFault c s).buf = s.buf := rfl
@[simp] theorem raiseFault_phase (c : FaultCause) (s : State) : (raiseFault c s).phase = s.phase := rfl
@[simp] theorem raiseFault_err (c : FaultCause) (s : State) : (raiseFault c s).err = setErr s.err c := rfl
@[simp] theorem raiseFault_wp (c : FaultCause) (s : State) : (raiseFault c s).wp = s.wp := rfl
@[simp] theorem raiseFault_i (c : FaultCause) (s : State) : (raiseFault c s).i = s.i := rfl
@[simp] theorem raiseFault_k (c : FaultCause) (s : State) : (raiseFault c s).k = s.k := rfl
@[simp] theorem raiseFault_sc (c : FaultCause) (s : State) : (raiseFault c s).sc = s.sc := rfl
@[simp] theorem raiseFault_bl (c : FaultCause) (s : State) : (raiseFault c s).bl = s.bl := rfl
@[simp] theorem raiseFault_npix (c : FaultCause) (s : State) : (raiseFault c s).npix = s.npix := rfl
@[simp] theorem raiseFault_pq (c : FaultCause) (s : State) : (raiseFault c s).pq = s.pq := rfl
@[simp] theorem raiseFault_rx (c : FaultCause) (s : State) : (raiseFault c s).rx = s.rx := rfl
@[simp] theorem raiseFault_cmdPort (c : FaultCause) (s : State) : (raiseFault c s).cmdPort = s.cmdPort := rfl
@[simp] theorem raiseFault_arrivals (c : FaultCause) (s : State) : (raiseFault c s).arrivals = s.arrivals := rfl
@[simp] theorem raiseFault_outputs (c : FaultCause) (s : State) : (raiseFault c s).outputs = s.outputs ++ [.resp (.failed c)] := rfl
@[simp] theorem raiseFault_resets (c : FaultCause) (s : State) : (raiseFault c s).resets = s.resets := rfl

/-! `respondOk`. -/

@[simp] theorem respondOk_cfg (s : State) : (respondOk s).cfg = s.cfg := rfl
@[simp] theorem respondOk_brt (s : State) : (respondOk s).brt = s.brt := rfl
@[simp] theorem respondOk_buf (s : State) : (respondOk s).buf = s.buf := rfl
@[simp] theorem respondOk_phase (s : State) : (respondOk s).phase = s.phase := rfl
@[simp] theorem respondOk_err (s : State) : (respondOk s).err = s.err := rfl
@[simp] theorem respondOk_wp (s : State) : (respondOk s).wp = s.wp := rfl
@[simp] theorem respondOk_i (s : State) : (respondOk s).i = s.i := rfl
@[simp] theorem respondOk_k (s : State) : (respondOk s).k = s.k := rfl
@[simp] theorem respondOk_sc (s : State) : (respondOk s).sc = s.sc := rfl
@[simp] theorem respondOk_bl (s : State) : (respondOk s).bl = s.bl := rfl
@[simp] theorem respondOk_npix (s : State) : (respondOk s).npix = s.npix := rfl
@[simp] theorem respondOk_pq (s : State) : (respondOk s).pq = s.pq := rfl
@[simp] theorem respondOk_rx (s : State) : (respondOk s).rx = s.rx := rfl
@[simp] theorem respondOk_cmdPort (s : State) : (respondOk s).cmdPort = s.cmdPort := rfl
@[simp] theorem respondOk_arrivals (s : State) : (respondOk s).arrivals = s.arrivals := rfl
@[simp] theorem respondOk_outputs (s : State) : (respondOk s).outputs = s.outputs ++ [.resp .success] := rfl
@[simp] theorem respondOk_resets (s : State) : (respondOk s).resets = s.resets := rfl

/-! `handOver` (R143). -/

@[simp] theorem handOver_cfg (s : State) : (handOver s).cfg = s.cfg := rfl
@[simp] theorem handOver_brt (s : State) : (handOver s).brt = s.brt := rfl
@[simp] theorem handOver_buf (s : State) : (handOver s).buf = s.buf := rfl
@[simp] theorem handOver_phase (s : State) : (handOver s).phase = .tx := rfl
@[simp] theorem handOver_err (s : State) : (handOver s).err = s.err := rfl
@[simp] theorem handOver_wp (s : State) : (handOver s).wp = s.wp := rfl
@[simp] theorem handOver_i (s : State) : (handOver s).i = s.i := rfl
@[simp] theorem handOver_k (s : State) : (handOver s).k = s.k := rfl
@[simp] theorem handOver_sc (s : State) : (handOver s).sc = s.sc := rfl
@[simp] theorem handOver_bl (s : State) : (handOver s).bl = s.bl := rfl
@[simp] theorem handOver_npix (s : State) : (handOver s).npix = s.npix := rfl
@[simp] theorem handOver_pq (s : State) : (handOver s).pq = s.pq := rfl
@[simp] theorem handOver_rx (s : State) : (handOver s).rx = s.rx := rfl
@[simp] theorem handOver_cmdPort (s : State) : (handOver s).cmdPort = s.cmdPort := rfl
@[simp] theorem handOver_arrivals (s : State) : (handOver s).arrivals = s.arrivals := rfl
@[simp] theorem handOver_outputs (s : State) : (handOver s).outputs = s.outputs ++ [.txStart s.frame] := rfl
@[simp] theorem handOver_resets (s : State) : (handOver s).resets = s.resets := rfl

/-! `takeReset` (R160). -/

@[simp] theorem takeReset_cfg (s : State) : (takeReset s).cfg = s.cfg := rfl
@[simp] theorem takeReset_brt (s : State) : (takeReset s).brt = 100 := rfl
@[simp] theorem takeReset_buf (s : State) : (takeReset s).buf = [] := rfl
@[simp] theorem takeReset_phase (s : State) : (takeReset s).phase = .uninit := rfl
@[simp] theorem takeReset_err (s : State) : (takeReset s).err = 0 := rfl
@[simp] theorem takeReset_wp (s : State) : (takeReset s).wp = 0 := rfl
@[simp] theorem takeReset_i (s : State) : (takeReset s).i = 0 := rfl
@[simp] theorem takeReset_k (s : State) : (takeReset s).k = 0 := rfl
@[simp] theorem takeReset_sc (s : State) : (takeReset s).sc = 0 := rfl
@[simp] theorem takeReset_bl (s : State) : (takeReset s).bl = 0 := rfl
@[simp] theorem takeReset_npix (s : State) : (takeReset s).npix = 0 := rfl
@[simp] theorem takeReset_pq (s : State) : (takeReset s).pq = [] := rfl
@[simp] theorem takeReset_rx (s : State) : (takeReset s).rx = [] := rfl
@[simp] theorem takeReset_cmdPort (s : State) : (takeReset s).cmdPort = s.cmdPort := rfl
@[simp] theorem takeReset_arrivals (s : State) : (takeReset s).arrivals = s.arrivals := rfl
@[simp] theorem takeReset_outputs (s : State) : (takeReset s).outputs = s.outputs := rfl
@[simp] theorem takeReset_resets (s : State) : (takeReset s).resets = s.resets + 1 := rfl

/-! `startFill` (R109). -/

@[simp] theorem startFill_cfg (ps : List Pixel) (s : State) : (startFill ps s).cfg = s.cfg := rfl
@[simp] theorem startFill_brt (ps : List Pixel) (s : State) : (startFill ps s).brt = s.brt := rfl
@[simp] theorem startFill_buf (ps : List Pixel) (s : State) : (startFill ps s).buf = s.buf := rfl
@[simp] theorem startFill_phase (ps : List Pixel) (s : State) : (startFill ps s).phase = if ps = [] then .off else .enc := rfl
@[simp] theorem startFill_err (ps : List Pixel) (s : State) : (startFill ps s).err = s.err := rfl
@[simp] theorem startFill_wp (ps : List Pixel) (s : State) : (startFill ps s).wp = 0 := rfl
@[simp] theorem startFill_i (ps : List Pixel) (s : State) : (startFill ps s).i = 0 := rfl
@[simp] theorem startFill_k (ps : List Pixel) (s : State) : (startFill ps s).k = 0 := rfl
@[simp] theorem startFill_sc (ps : List Pixel) (s : State) : (startFill ps s).sc = s.sc := rfl
@[simp] theorem startFill_bl (ps : List Pixel) (s : State) : (startFill ps s).bl = s.brt := rfl
@[simp] theorem startFill_npix (ps : List Pixel) (s : State) : (startFill ps s).npix = ps.length := rfl
@[simp] theorem startFill_pq (ps : List Pixel) (s : State) : (startFill ps s).pq = ps := rfl
@[simp] theorem startFill_rx (ps : List Pixel) (s : State) : (startFill ps s).rx = s.rx := rfl
@[simp] theorem startFill_cmdPort (ps : List Pixel) (s : State) : (startFill ps s).cmdPort = s.cmdPort := rfl
@[simp] theorem startFill_arrivals (ps : List Pixel) (s : State) : (startFill ps s).arrivals = s.arrivals := rfl
@[simp] theorem startFill_outputs (ps : List Pixel) (s : State) : (startFill ps s).outputs = s.outputs := rfl
@[simp] theorem startFill_resets (ps : List Pixel) (s : State) : (startFill ps s).resets = s.resets := rfl

/-! `runFill` (R100). -/

@[simp] theorem runFill_cfg (b : Brightness) (ps : List Pixel) (s : State) : (runFill b ps s).cfg = s.cfg := rfl
@[simp] theorem runFill_brt (b : Brightness) (ps : List Pixel) (s : State) : (runFill b ps s).brt = s.brt := rfl
@[simp] theorem runFill_buf (b : Brightness) (ps : List Pixel) (s : State) : (runFill b ps s).buf = fill s.cfg b ps s.buf := rfl
@[simp] theorem runFill_phase (b : Brightness) (ps : List Pixel) (s : State) : (runFill b ps s).phase = .tx := rfl
@[simp] theorem runFill_err (b : Brightness) (ps : List Pixel) (s : State) : (runFill b ps s).err = s.err := rfl
@[simp] theorem runFill_wp (b : Brightness) (ps : List Pixel) (s : State) : (runFill b ps s).wp = bufLen s.cfg := rfl
@[simp] theorem runFill_i (b : Brightness) (ps : List Pixel) (s : State) : (runFill b ps s).i = ps.length := rfl
@[simp] theorem runFill_k (b : Brightness) (ps : List Pixel) (s : State) : (runFill b ps s).k = 0 := rfl
@[simp] theorem runFill_sc (b : Brightness) (ps : List Pixel) (s : State) : (runFill b ps s).sc = scaledAfter b ps s.sc := rfl
@[simp] theorem runFill_bl (b : Brightness) (ps : List Pixel) (s : State) : (runFill b ps s).bl = s.bl := rfl
@[simp] theorem runFill_npix (b : Brightness) (ps : List Pixel) (s : State) : (runFill b ps s).npix = s.npix := rfl
@[simp] theorem runFill_pq (b : Brightness) (ps : List Pixel) (s : State) : (runFill b ps s).pq = s.pq := rfl
@[simp] theorem runFill_rx (b : Brightness) (ps : List Pixel) (s : State) : (runFill b ps s).rx = s.rx := rfl
@[simp] theorem runFill_cmdPort (b : Brightness) (ps : List Pixel) (s : State) : (runFill b ps s).cmdPort = s.cmdPort := rfl
@[simp] theorem runFill_arrivals (b : Brightness) (ps : List Pixel) (s : State) : (runFill b ps s).arrivals = s.arrivals := rfl
@[simp] theorem runFill_resets (b : Brightness) (ps : List Pixel) (s : State) : (runFill b ps s).resets = s.resets := rfl

/-! `storeAtWp` (R107, R108). -/

@[simp] theorem storeAtWp_cfg (sym : Symbol) (s : State) : (storeAtWp sym s).cfg = s.cfg := rfl
@[simp] theorem storeAtWp_brt (sym : Symbol) (s : State) : (storeAtWp sym s).brt = s.brt := rfl
@[simp] theorem storeAtWp_buf (sym : Symbol) (s : State) : (storeAtWp sym s).buf = symStore s.cfg s.buf s.wp sym := rfl
@[simp] theorem storeAtWp_phase (sym : Symbol) (s : State) : (storeAtWp sym s).phase = s.phase := rfl
@[simp] theorem storeAtWp_err (sym : Symbol) (s : State) : (storeAtWp sym s).err = s.err := rfl
@[simp] theorem storeAtWp_wp (sym : Symbol) (s : State) : (storeAtWp sym s).wp = s.wp + 2 := rfl
@[simp] theorem storeAtWp_i (sym : Symbol) (s : State) : (storeAtWp sym s).i = s.i := rfl
@[simp] theorem storeAtWp_k (sym : Symbol) (s : State) : (storeAtWp sym s).k = s.k := rfl
@[simp] theorem storeAtWp_sc (sym : Symbol) (s : State) : (storeAtWp sym s).sc = s.sc := rfl
@[simp] theorem storeAtWp_bl (sym : Symbol) (s : State) : (storeAtWp sym s).bl = s.bl := rfl
@[simp] theorem storeAtWp_npix (sym : Symbol) (s : State) : (storeAtWp sym s).npix = s.npix := rfl
@[simp] theorem storeAtWp_pq (sym : Symbol) (s : State) : (storeAtWp sym s).pq = s.pq := rfl
@[simp] theorem storeAtWp_rx (sym : Symbol) (s : State) : (storeAtWp sym s).rx = s.rx := rfl
@[simp] theorem storeAtWp_cmdPort (sym : Symbol) (s : State) : (storeAtWp sym s).cmdPort = s.cmdPort := rfl
@[simp] theorem storeAtWp_arrivals (sym : Symbol) (s : State) : (storeAtWp sym s).arrivals = s.arrivals := rfl
@[simp] theorem storeAtWp_outputs (sym : Symbol) (s : State) : (storeAtWp sym s).outputs = s.outputs := rfl
@[simp] theorem storeAtWp_resets (sym : Symbol) (s : State) : (storeAtWp sym s).resets = s.resets := rfl

/-! `consumeTo` (R55). -/

@[simp] theorem consumeTo_cfg (rest : List Word) (s : State) : (consumeTo rest s).cfg = s.cfg := rfl
@[simp] theorem consumeTo_brt (rest : List Word) (s : State) : (consumeTo rest s).brt = s.brt := rfl
@[simp] theorem consumeTo_buf (rest : List Word) (s : State) : (consumeTo rest s).buf = s.buf := rfl
@[simp] theorem consumeTo_phase (rest : List Word) (s : State) : (consumeTo rest s).phase = s.phase := rfl
@[simp] theorem consumeTo_err (rest : List Word) (s : State) : (consumeTo rest s).err = s.err := rfl
@[simp] theorem consumeTo_wp (rest : List Word) (s : State) : (consumeTo rest s).wp = s.wp := rfl
@[simp] theorem consumeTo_i (rest : List Word) (s : State) : (consumeTo rest s).i = s.i := rfl
@[simp] theorem consumeTo_k (rest : List Word) (s : State) : (consumeTo rest s).k = s.k := rfl
@[simp] theorem consumeTo_sc (rest : List Word) (s : State) : (consumeTo rest s).sc = s.sc := rfl
@[simp] theorem consumeTo_bl (rest : List Word) (s : State) : (consumeTo rest s).bl = s.bl := rfl
@[simp] theorem consumeTo_npix (rest : List Word) (s : State) : (consumeTo rest s).npix = s.npix := rfl
@[simp] theorem consumeTo_pq (rest : List Word) (s : State) : (consumeTo rest s).pq = s.pq := rfl
@[simp] theorem consumeTo_rx (rest : List Word) (s : State) : (consumeTo rest s).rx = [] := rfl
@[simp] theorem consumeTo_cmdPort (rest : List Word) (s : State) : (consumeTo rest s).cmdPort = rest := rfl
@[simp] theorem consumeTo_arrivals (rest : List Word) (s : State) : (consumeTo rest s).arrivals = s.arrivals := rfl
@[simp] theorem consumeTo_outputs (rest : List Word) (s : State) : (consumeTo rest s).outputs = s.outputs := rfl
@[simp] theorem consumeTo_resets (rest : List Word) (s : State) : (consumeTo rest s).resets = s.resets := rfl

/-! `presentWords`. -/

@[simp] theorem presentWords_cfg (ws : List Word) (s : State) : (presentWords ws s).cfg = s.cfg := rfl
@[simp] theorem presentWords_brt (ws : List Word) (s : State) : (presentWords ws s).brt = s.brt := rfl
@[simp] theorem presentWords_buf (ws : List Word) (s : State) : (presentWords ws s).buf = s.buf := rfl
@[simp] theorem presentWords_phase (ws : List Word) (s : State) : (presentWords ws s).phase = s.phase.accepting := rfl
@[simp] theorem presentWords_err (ws : List Word) (s : State) : (presentWords ws s).err = s.err := rfl
@[simp] theorem presentWords_wp (ws : List Word) (s : State) : (presentWords ws s).wp = s.wp := rfl
@[simp] theorem presentWords_i (ws : List Word) (s : State) : (presentWords ws s).i = s.i := rfl
@[simp] theorem presentWords_k (ws : List Word) (s : State) : (presentWords ws s).k = s.k := rfl
@[simp] theorem presentWords_sc (ws : List Word) (s : State) : (presentWords ws s).sc = s.sc := rfl
@[simp] theorem presentWords_bl (ws : List Word) (s : State) : (presentWords ws s).bl = s.bl := rfl
@[simp] theorem presentWords_npix (ws : List Word) (s : State) : (presentWords ws s).npix = s.npix := rfl
@[simp] theorem presentWords_pq (ws : List Word) (s : State) : (presentWords ws s).pq = s.pq := rfl
@[simp] theorem presentWords_rx (ws : List Word) (s : State) : (presentWords ws s).rx = [] := rfl
@[simp] theorem presentWords_cmdPort (ws : List Word) (s : State) : (presentWords ws s).cmdPort = ws := rfl
@[simp] theorem presentWords_arrivals (ws : List Word) (s : State) : (presentWords ws s).arrivals = [] := rfl
@[simp] theorem presentWords_outputs (ws : List Word) (s : State) : (presentWords ws s).outputs = s.outputs := rfl
@[simp] theorem presentWords_resets (ws : List Word) (s : State) : (presentWords ws s).resets = s.resets := rfl

/-! The reset state (R26). -/

@[simp] theorem State.resetWith_cfg (c : Config) : (State.resetWith c).cfg = c := rfl
@[simp] theorem State.resetWith_brt (c : Config) : (State.resetWith c).brt = 100 := rfl
@[simp] theorem State.resetWith_buf (c : Config) : (State.resetWith c).buf = [] := rfl
@[simp] theorem State.resetWith_phase (c : Config) : (State.resetWith c).phase = .uninit := rfl
@[simp] theorem State.resetWith_err (c : Config) : (State.resetWith c).err = 0 := rfl
@[simp] theorem State.resetWith_wp (c : Config) : (State.resetWith c).wp = 0 := rfl
@[simp] theorem State.resetWith_i (c : Config) : (State.resetWith c).i = 0 := rfl
@[simp] theorem State.resetWith_k (c : Config) : (State.resetWith c).k = 0 := rfl
@[simp] theorem State.resetWith_sc (c : Config) : (State.resetWith c).sc = 0 := rfl
@[simp] theorem State.resetWith_bl (c : Config) : (State.resetWith c).bl = 0 := rfl
@[simp] theorem State.resetWith_npix (c : Config) : (State.resetWith c).npix = 0 := rfl
@[simp] theorem State.resetWith_pq (c : Config) : (State.resetWith c).pq = [] := rfl
@[simp] theorem State.resetWith_rx (c : Config) : (State.resetWith c).rx = [] := rfl
@[simp] theorem State.resetWith_cmdPort (c : Config) : (State.resetWith c).cmdPort = [] := rfl
@[simp] theorem State.resetWith_arrivals (c : Config) : (State.resetWith c).arrivals = [] := rfl
@[simp] theorem State.resetWith_outputs (c : Config) : (State.resetWith c).outputs = [] := rfl
@[simp] theorem State.resetWith_resets (c : Config) : (State.resetWith c).resets = 0 := rfl

/-! The frame reads the configuration, the buffer and the reset count, and nothing else (R37). -/

theorem State.frame_congr {s t : State} (hc : s.cfg = t.cfg) (hb : s.buf = t.buf) (hr : s.resets = t.resets) :
    s.frame = t.frame := by
  simp [State.frame, hc, hb, hr]

/-- Frames of buffers that read alike are the same, where each byte has a value or the reset counts agree. -/
theorem State.frame_congr_read {s t : State} (hc : s.cfg = t.cfg)
    (h : ∀ a, a < bufLen s.cfg → s.buf.read a = t.buf.read a ∧ (s.resets = t.resets ∨ ∃ b, t.buf.read a = some b)) :
    s.frame = t.frame := by
  unfold State.frame
  rw [← hc]
  refine List.map_congr_left fun a ha => ?_
  obtain ⟨h1, h2 | ⟨b, h2⟩⟩ := h a (List.mem_range.1 ha)
  · rw [h1, h2]
  · rw [h1, h2]; rfl

@[simp] theorem handOver_frame (s : State) : (handOver s).frame = s.frame := rfl
@[simp] theorem State.emit_frame (s : State) (o : Output) : (s.emit o).frame = s.frame := rfl
@[simp] theorem raiseFault_frame (c : FaultCause) (s : State) : (raiseFault c s).frame = s.frame := rfl
@[simp] theorem respondOk_frame (s : State) : (respondOk s).frame = s.frame := rfl

/-- A frame has one byte for each byte of the buffer (R143). -/
@[simp] theorem State.frame_length (s : State) : s.frame.length = bufLen s.cfg := by simp [State.frame]

/-- Byte `a` of a frame is `BUF[a]` where that byte has a value (R37, R143). -/
theorem State.frame_getElem? {s : State} {a : Nat} {b : Byte} (h : a < bufLen s.cfg) (hb : s.buf.read a = some b) :
    s.frame[a]? = some b := by
  simp [State.frame, h, hb]

/-- A whole fill hands over the buffer it leaves (R100). -/
@[simp] theorem runFill_outputs (b : Brightness) (ps : List Pixel) (s : State) :
    (runFill b ps s).outputs = s.outputs ++ [.txStart (runFill b ps s).frame] := rfl

/-! The status levels follow the phase and `ERR` (R20). -/

@[simp] theorem Phase.busy_iff (p : Phase) : p.busy = true ↔ p = .enc ∨ p = .off ∨ p = .tx := by
  cases p <;> simp [Phase.busy]

theorem State.busy_iff (s : State) : s.busy = true ↔ s.phase = .enc ∨ s.phase = .off ∨ s.phase = .tx :=
  Phase.busy_iff s.phase

/-! `TxDone` by phase (R145). -/

theorem takeTxDone_of_tx {s : State} (h : s.phase = .tx) : takeTxDone s = respondOk { s with phase := .idle } := by
  simp [takeTxDone, h]

theorem takeTxDone_of_ne_tx {s : State} (h : s.phase ≠ .tx) : takeTxDone s = s := by
  unfold takeTxDone
  split <;> simp_all

/-! The step by what comes next (R8, R106). -/

theorem step_eq_encoderStep {s : State} (h : s.arrivals = []) : step s = encoderStep s := by
  simp [step, advance, h]

theorem step_eq_arrive {s : State} {a : Arrival} {as : List Arrival} (h : s.arrivals = a :: as) :
    step s = arrive a { s with arrivals := as } := by
  simp [step, advance, h]

/-- The encoder's own move: nothing to come, or a `quiet` move, which is used up. -/
theorem step_of_own_move {s : State} {as : List Arrival} (h : (s.arrivals = [] ∧ as = []) ∨ s.arrivals = .quiet :: as) :
    step s = encoderStep { s with arrivals := as } := by
  rcases h with ⟨h, rfl⟩ | h
  · rw [step_eq_encoderStep h, ← h]
  · rw [step_eq_arrive h]; rfl

end Sys2Proof.Machine
end

