-- ==== Sys2Proof/Laws/Ops.lean ====
section
/-! SUPPORT. What each meaning, controller step and step of the machine can do, said once (inversion lemmas). -/

namespace Sys2Proof.Machine

/-! The meanings (R90, R100, R120). -/

theorem execSetbrt_of_uninit {v : Byte} {s : State} (h : s.phase = .uninit) :
    execSetbrt v s = .next (raiseFault .notInitialized s) := by simp [execSetbrt, h]

theorem execSetbrt_of_ne {v : Byte} {s : State} (h : s.phase ≠ .uninit) :
    execSetbrt v s = .next (respondOk { s with brt := v }) := by simp [execSetbrt, h]

theorem execInit_of_usable {b : Byte} {u : Brightness} {s : State} (h : usableBrightness b = some u) :
    execInit b s = .next (showBody u [] { s with brt := b, buf := bufClear s.cfg s.buf }) := by simp [execInit, h]

theorem execInit_of_none {b : Byte} {s : State} (h : usableBrightness b = none) :
    execInit b s = .next (raiseFault .brightnessRange s) := by simp [execInit, h]

theorem execShow_of_fill {ps : List Pixel} {b : Brightness} {s : State} (hp : s.phase ≠ .uninit)
    (hn : ps.length ≤ s.cfg.ledCount) (hb : usableBrightness s.brt = some b) :
    execShow ps s = .next (showBody b ps s) := by
  simp [execShow, hp, hb, Nat.not_lt.2 hn]

/-- Everything a command can do (R90, R100, R120, R138): one of three faults, or its effect. -/
theorem exec_cases {i : Instr} {s t : State} (h : exec i s = .next t) :
    (∃ c, c ≠ .illegalCommand ∧ t = raiseFault c s) ∨
    (∃ v, i = .setbrt v ∧ s.phase ≠ .uninit ∧ t = respondOk { s with brt := v }) ∨
    (∃ b u, i = .init b ∧ usableBrightness b = some u ∧
      t = showBody u [] { s with brt := b, buf := bufClear s.cfg s.buf }) ∨
    (∃ ps b, i = .showPixels ps ∧ s.phase ≠ .uninit ∧ ps.length ≤ s.cfg.ledCount ∧
      usableBrightness s.brt = some b ∧ t = showBody b ps s) := by
  cases i with
  | init b =>
    simp only [exec, execInit] at h
    split at h
    · cases h; exact .inl ⟨_, by simp, rfl⟩
    · next u hu => cases h; exact .inr (.inr (.inl ⟨b, u, rfl, hu, rfl⟩))
  | setbrt v =>
    simp only [exec, execSetbrt] at h
    split at h
    · cases h; exact .inl ⟨_, by simp, rfl⟩
    · next hp => cases h; exact .inr (.inl ⟨v, rfl, hp, rfl⟩)
  | showPixels ps =>
    simp only [exec, execShow] at h
    split at h
    · cases h; exact .inl ⟨_, by simp, rfl⟩
    · next hp =>
      split at h
      · cases h; exact .inl ⟨_, by simp, rfl⟩
      · next hn =>
        split at h
        · cases h; exact .inl ⟨_, by simp, rfl⟩
        · next b hb => cases h; exact .inr (.inr (.inr ⟨ps, b, rfl, hp, Nat.not_lt.1 hn, hb, rfl⟩))

/-- A command never stops the machine: every arm answers a next state. -/
theorem exec_answers (i : Instr) (s : State) : ∃ t, exec i s = .next t := by
  cases i with
  | init b => simp only [exec, execInit]; split <;> exact ⟨_, rfl⟩
  | setbrt v => simp only [exec, execSetbrt]; split <;> exact ⟨_, rfl⟩
  | showPixels ps =>
    simp only [exec, execShow]
    split
    · exact ⟨_, rfl⟩
    · split
      · exact ⟨_, rfl⟩
      · split <;> exact ⟨_, rfl⟩

theorem showBody_of_command {b : Brightness} {ps : List Pixel} {s : State} (h : s.cfg.level = .command) :
    showBody b ps s = runFill b ps (startFill ps s) := by simp [showBody, h]

theorem showBody_of_slot {b : Brightness} {ps : List Pixel} {s : State} (h : s.cfg.level = .slot) :
    showBody b ps s = startFill ps s := by simp [showBody, h]

/-! The controller's steps (R107, R108). -/

theorem encReady_iff (s : State) :
    encReady s = true ↔ s.i < s.npix ∧ s.k ≤ 11 ∧ s.wp = slotAddr s.i s.k ∧ s.npix = s.pq.length ∧
      s.npix ≤ s.cfg.ledCount := by
  simp [encReady, and_assoc]

theorem offReady_iff (s : State) :
    offReady s = true ↔ s.wp % 2 = 0 ∧ 24 * s.npix ≤ s.wp ∧ s.wp + 2 ≤ bufLen s.cfg := by
  simp [offReady, and_assoc]

/-- Everything an `ENC` step can do. -/
theorem encStep_cases {s t : State} (h : encStep s = .next t) :
    encReady s = true ∧ ∃ sc, encScaled s = some sc ∧
      t = encAdvance (storeAtWp (lookup s.cfg (slotOfScaled sc s.k)) { s with sc := sc }) := by
  unfold encStep at h
  split at h
  · next hr =>
    split at h
    · next sc hs => cases h; exact ⟨hr, sc, hs, rfl⟩
    · cases h
  · cases h

/-- Everything an `OFF` step can do. -/
theorem offStep_cases {s t : State} (h : offStep s = .next t) :
    offReady s = true ∧ t = offAdvance (storeAtWp (offSymbol s.cfg) s) := by
  unfold offStep at h
  split at h
  · next hr => cases h; exact ⟨hr, rfl⟩
  · cases h

/-- What follows the store of an `ENC` step, by the slot and the pixel just written (R107). -/
theorem encAdvance_cases (s : State) :
    (s.k < 11 ∧ encAdvance s = { s with k := s.k + 1 }) ∨
    (¬ s.k < 11 ∧ s.i + 1 = s.npix ∧ s.npix < s.cfg.ledCount ∧ encAdvance s = { s with k := 0, i := s.i + 1, phase := .off }) ∨
    (¬ s.k < 11 ∧ s.i + 1 = s.npix ∧ ¬ s.npix < s.cfg.ledCount ∧ encAdvance s = handOver { s with k := 0, i := s.i + 1 }) ∨
    (¬ s.k < 11 ∧ s.i + 1 ≠ s.npix ∧ encAdvance s = { s with k := 0, i := s.i + 1 }) := by
  unfold encAdvance
  split
  · simp [*]
  · split
    · split <;> simp [*]
    · simp [*]

/-! What these operations leave alone. -/

/-- The advance of an `ENC` step touches `K`, `I`, the phase and, at a hand-over, the outputs. -/
theorem encAdvance_eq (s : State) :
    encAdvance s = { s with
      k := (encAdvance s).k, i := (encAdvance s).i, phase := (encAdvance s).phase, outputs := (encAdvance s).outputs } := by
  rcases encAdvance_cases s with ⟨_, h⟩ | ⟨_, _, _, h⟩ | ⟨_, _, _, h⟩ | ⟨_, _, h⟩ <;> (rw [h]; try rfl)

/-- The end of an `OFF` step touches the phase and, at a hand-over, the outputs. -/
theorem offAdvance_eq (s : State) :
    offAdvance s = { s with phase := (offAdvance s).phase, outputs := (offAdvance s).outputs } := by
  unfold offAdvance; split <;> rfl

theorem offAdvance_cases (s : State) :
    (s.wp = bufLen s.cfg ∧ offAdvance s = handOver s) ∨ (s.wp ≠ bufLen s.cfg ∧ offAdvance s = s) := by
  unfold offAdvance; split <;> simp [*]

@[simp] theorem encAdvance_cfg (s : State) : (encAdvance s).cfg = s.cfg := by rw [encAdvance_eq]
@[simp] theorem encAdvance_brt (s : State) : (encAdvance s).brt = s.brt := by rw [encAdvance_eq]
@[simp] theorem encAdvance_buf (s : State) : (encAdvance s).buf = s.buf := by rw [encAdvance_eq]
@[simp] theorem encAdvance_err (s : State) : (encAdvance s).err = s.err := by rw [encAdvance_eq]
@[simp] theorem encAdvance_wp (s : State) : (encAdvance s).wp = s.wp := by rw [encAdvance_eq]
@[simp] theorem encAdvance_sc (s : State) : (encAdvance s).sc = s.sc := by rw [encAdvance_eq]
@[simp] theorem encAdvance_bl (s : State) : (encAdvance s).bl = s.bl := by rw [encAdvance_eq]
@[simp] theorem encAdvance_npix (s : State) : (encAdvance s).npix = s.npix := by rw [encAdvance_eq]
@[simp] theorem encAdvance_pq (s : State) : (encAdvance s).pq = s.pq := by rw [encAdvance_eq]
@[simp] theorem encAdvance_rx (s : State) : (encAdvance s).rx = s.rx := by rw [encAdvance_eq]
@[simp] theorem encAdvance_cmdPort (s : State) : (encAdvance s).cmdPort = s.cmdPort := by rw [encAdvance_eq]
@[simp] theorem encAdvance_arrivals (s : State) : (encAdvance s).arrivals = s.arrivals := by rw [encAdvance_eq]
@[simp] theorem encAdvance_resets (s : State) : (encAdvance s).resets = s.resets := by rw [encAdvance_eq]

@[simp] theorem offAdvance_cfg (s : State) : (offAdvance s).cfg = s.cfg := by rw [offAdvance_eq]
@[simp] theorem offAdvance_brt (s : State) : (offAdvance s).brt = s.brt := by rw [offAdvance_eq]
@[simp] theorem offAdvance_buf (s : State) : (offAdvance s).buf = s.buf := by rw [offAdvance_eq]
@[simp] theorem offAdvance_err (s : State) : (offAdvance s).err = s.err := by rw [offAdvance_eq]
@[simp] theorem offAdvance_rx (s : State) : (offAdvance s).rx = s.rx := by rw [offAdvance_eq]
@[simp] theorem offAdvance_cmdPort (s : State) : (offAdvance s).cmdPort = s.cmdPort := by rw [offAdvance_eq]
@[simp] theorem offAdvance_arrivals (s : State) : (offAdvance s).arrivals = s.arrivals := by rw [offAdvance_eq]

@[simp] theorem showBody_cfg (b : Brightness) (ps : List Pixel) (s : State) : (showBody b ps s).cfg = s.cfg := by
  unfold showBody; split <;> rfl
@[simp] theorem showBody_brt (b : Brightness) (ps : List Pixel) (s : State) : (showBody b ps s).brt = s.brt := by
  unfold showBody; split <;> rfl
@[simp] theorem showBody_err (b : Brightness) (ps : List Pixel) (s : State) : (showBody b ps s).err = s.err := by
  unfold showBody; split <;> rfl
@[simp] theorem showBody_rx (b : Brightness) (ps : List Pixel) (s : State) : (showBody b ps s).rx = s.rx := by
  unfold showBody; split <;> rfl
@[simp] theorem showBody_cmdPort (b : Brightness) (ps : List Pixel) (s : State) : (showBody b ps s).cmdPort = s.cmdPort := by
  unfold showBody; split <;> rfl

@[simp] theorem takeTxDone_cfg (s : State) : (takeTxDone s).cfg = s.cfg := by unfold takeTxDone; split <;> rfl
@[simp] theorem takeTxDone_brt (s : State) : (takeTxDone s).brt = s.brt := by unfold takeTxDone; split <;> rfl
@[simp] theorem takeTxDone_buf (s : State) : (takeTxDone s).buf = s.buf := by unfold takeTxDone; split <;> rfl
@[simp] theorem takeTxDone_err (s : State) : (takeTxDone s).err = s.err := by unfold takeTxDone; split <;> rfl
@[simp] theorem takeTxDone_rx (s : State) : (takeTxDone s).rx = s.rx := by unfold takeTxDone; split <;> rfl
@[simp] theorem takeTxDone_cmdPort (s : State) : (takeTxDone s).cmdPort = s.cmdPort := by unfold takeTxDone; split <;> rfl

/-- Setting one `ERR` bit clears none (R16). -/
theorem setErr_mono (e : BitVec 4) (c : FaultCause) {j : Nat} (h : e.getLsbD j = true) : (setErr e c).getLsbD j = true := by
  simp [setErr, h]

/-! The step of the machine. -/

/-- What the encoder finds when it steps: no arrival, a `quiet` one, or a word just presented. -/
inductive Presented (s : State) : List Arrival → List Word → Prop where
  | none (h : s.arrivals = []) : Presented s [] s.cmdPort
  | quiet (as : List Arrival) (h : s.arrivals = .quiet :: as) : Presented s as s.cmdPort
  | word (w : Word) (as : List Arrival) (h : s.arrivals = .word w :: as) : Presented s as (s.cmdPort ++ [w])

/-- The state the encoder steps from: the arrival taken, the presented words on the port. -/
def presented (s : State) (as : List Arrival) (ws : List Word) : State := { s with arrivals := as, cmdPort := ws }

theorem Presented.words_eq {s : State} {as : List Arrival} {ws : List Word} (h : Presented s as ws) :
    ws = s.cmdPort ∨ ∃ w, s.arrivals.head? = some (.word w) ∧ ws = s.cmdPort ++ [w] := by
  cases h with
  | none h => exact .inl rfl
  | quiet as h => exact .inl rfl
  | word w as h => exact .inr ⟨w, by simp [h], rfl⟩

@[simp] theorem presented_phase (s : State) (as : List Arrival) (ws : List Word) : (presented s as ws).phase = s.phase := rfl

/-- Everything a step that answers a next state can be (R106, R110, R145, R160, R165, R166). -/
inductive StepsTo (s : State) : State → Prop where
  | reset (as : List Arrival) (h : s.arrivals = .reset :: as) : StepsTo s (takeReset { s with arrivals := as })
  | txDone (as : List Arrival) (h : s.arrivals = .txDone :: as) : StepsTo s (takeTxDone { s with arrivals := as })
  | held (as : List Arrival) (ws : List Word) (h : Presented s as ws) (hb : s.phase = .enc ∨ s.phase = .off ∨ s.phase = .tx) :
      StepsTo s (presented s as ws)
  | command (as : List Arrival) (ws : List Word) (h : Presented s as ws) (hp : s.phase = .uninit ∨ s.phase = .idle)
      (i : Instr) (rest : List Word) (hd : decode (s.rx ++ ws) = .instr i rest) (t : State)
      (ht : exec i (consumeTo rest (presented s as ws)) = .next t) : StepsTo s t
  | illegal (as : List Arrival) (ws : List Word) (h : Presented s as ws) (hp : s.phase = .uninit ∨ s.phase = .idle)
      (why : Reject) (rest : List Word) (hd : decode (s.rx ++ ws) = .illegal why rest) :
      StepsTo s (raiseFault .illegalCommand (consumeTo rest (presented s as ws)))
  | incomplete (as : List Arrival) (ws : List Word) (h : Presented s as ws) (hp : s.phase = .uninit ∨ s.phase = .idle)
      (hd : decode (s.rx ++ ws) = .incomplete) :
      StepsTo s { presented s as ws with rx := s.rx ++ ws, cmdPort := [] }
  | enc (as : List Arrival) (h : s.arrivals = [] ∧ as = [] ∨ s.arrivals = .quiet :: as) (hp : s.phase = .enc) (t : State)
      (ht : encStep { s with arrivals := as } = .next t) : StepsTo s t
  | off (as : List Arrival) (h : s.arrivals = [] ∧ as = [] ∨ s.arrivals = .quiet :: as) (hp : s.phase = .off) (t : State)
      (ht : offStep { s with arrivals := as } = .next t) : StepsTo s t

theorem commandStep_cases {s t : State} {as : List Arrival} {ws : List Word} (hq : Presented s as ws)
    (hp : s.phase = .uninit ∨ s.phase = .idle) (h : commandStep (presented s as ws) = .next t) : StepsTo s t := by
  unfold commandStep at h
  split at h
  · next i rest hd => exact .command as ws hq hp i rest hd t h
  · next why rest hd => cases h; exact .illegal as ws hq hp why rest hd
  · next hd => cases h; exact .incomplete as ws hq hp hd

theorem encoderStep_cases {s t : State} {as : List Arrival} (ha : s.arrivals = [] ∧ as = [] ∨ s.arrivals = .quiet :: as)
    (h : encoderStep { s with arrivals := as } = .next t) : StepsTo s t := by
  have hq : Presented s as s.cmdPort := by
    rcases ha with ⟨h0, rfl⟩ | h0
    · exact .none h0
    · exact .quiet _ h0
  unfold encoderStep at h
  split at h
  · next hp => exact commandStep_cases hq (.inl hp) h
  · next hp => exact commandStep_cases hq (.inr hp) h
  · next hp => exact .enc as ha hp t h
  · next hp => exact .off as ha hp t h
  · next hp => cases h; exact .held as s.cmdPort hq (.inr (.inr hp))

/-- The inversion of `step`: what it can have done when it answers a next state. -/
theorem step_cases {s t : State} (h : step s = .next t) : StepsTo s t := by
  rcases ha : s.arrivals with _ | ⟨a, as⟩
  · rw [step_eq_encoderStep ha] at h
    have hs : ({ s with arrivals := [] } : State) = s := by cases s; simp_all
    exact encoderStep_cases (as := []) (.inl ⟨ha, rfl⟩) (by rwa [hs])
  · rw [step_eq_arrive ha] at h
    cases a with
    | reset => cases h; exact .reset as ha
    | txDone => cases h; exact .txDone as ha
    | quiet => exact encoderStep_cases (.inr ha) h
    | word w =>
      have hq := Presented.word w as ha
      simp only [arrive, takeWord] at h
      split at h
      · next hp => exact commandStep_cases hq (.inl hp) h
      · next hp => exact commandStep_cases hq (.inr hp) h
      · next hp => cases h; exact .held as _ hq (.inl hp)
      · next hp => cases h; exact .held as _ hq (.inr (.inl hp))
      · next hp => cases h; exact .held as _ hq (.inr (.inr hp))

end Sys2Proof.Machine
end

