-- ==== Sys2Proof/Laws/PerInstr.lean ====
section
/-! SUPPORT. Facts stated of every command as syntax, one lemma per constructor. -/

namespace Sys2Proof.Laws.EncodedLength

/-- The words of a well-formed command are as many as its first word says (R55). -/
def Statement (i : Instr) : Prop :=
  i.wf = true → ∃ w q, encode i = w :: q ∧ (encode i).length = commandLength w

theorem init (b : Byte) : Statement (.init b) := by
  intro _
  refine ⟨_, [], rfl, ?_⟩
  rw [commandLength, if_neg]
  · rfl
  · rw [show (0x03 : BitVec 8) = BitVec.ofNat 8 3 from rfl, opField_eq_iff (by omega), initWord_toNat]
    have := b.isLt; omega

theorem setbrt (v : Byte) : Statement (.setbrt v) := by
  intro _
  refine ⟨_, [], rfl, ?_⟩
  rw [commandLength, if_neg]
  · rfl
  · rw [show (0x03 : BitVec 8) = BitVec.ofNat 8 3 from rfl, opField_eq_iff (by omega), setbrtWord_toNat]
    have := v.isLt; omega

theorem showPixels (pixels : List Pixel) : Statement (.showPixels pixels) := by
  intro hw
  have hn : pixels.length ≤ 65535 := by simpa [Instr.wf] using hw
  refine ⟨_, _, rfl, ?_⟩
  rw [commandLength, if_pos, countField_eq, showWord_toNat hn, encode, List.length_cons, List.length_map]
  · omega
  · rw [show (0x03 : BitVec 8) = BitVec.ofNat 8 3 from rfl, opField_eq_iff (by omega), zField_eq_zero_iff, showWord_toNat hn]
    omega

end Sys2Proof.Laws.EncodedLength
end

