-- ==== Sys2Proof/Laws/Run.lean ====
section
/-! SUPPORT. Runs of the machine, step by step. -/

namespace Sys2Proof.Machine

/-- What a step that runs the command port decodes is what `wordsSeen` says. -/
theorem Presented.wordsSeen_eq {s : State} {as : List Arrival} {ws : List Word} (h : Presented s as ws) :
    s.wordsSeen = s.rx ++ ws := by
  cases h with
  | none h => simp [State.wordsSeen, h]
  | quiet as h => simp [State.wordsSeen, h]
  | word w as h => simp [State.wordsSeen, h]

theorem run_zero (s : State) : core.run 0 s = .next s := Host.Core.run.eq_1 core s

/-- A run goes on from where its first step leads. -/
theorem run_of_next {k : Nat} {s t : State} (h : step s = .next t) : core.run (k + 1) s = core.run k t := by
  have e := Host.Core.run.eq_2 core s k
  rw [show core.step s = .next t from h] at e
  exact e

/-- A run of one step that executes a command is that execution. -/
theorem run_one_of_exec {s u : State} {i : Instr} (h : step s = exec i u) : core.run 1 s = exec i u := by
  obtain ⟨t, ht⟩ := exec_answers i u
  rw [run_of_next (h.trans ht), ht]
  exact run_zero t

theorem run_of_fault {k : Nat} {s : State} {r : Fault} (h : step s = .fault r) : core.run (k + 1) s = .fault r := by
  have e := Host.Core.run.eq_2 core s k
  rw [show core.step s = .fault r from h] at e
  exact e

theorem run_of_refused {k : Nat} {s : State} {r : Refusal} (h : step s = .refused r) :
    core.run (k + 1) s = .refused r := by
  have e := Host.Core.run.eq_2 core s k
  rw [show core.step s = .refused r from h] at e
  exact e

/-- Runs one after the other are one run. -/
theorem run_add (a b : Nat) {s t : State} (h : core.run a s = .next t) : core.run (a + b) s = core.run b t := by
  induction a generalizing s with
  | zero => rw [run_zero] at h; cases h; rw [Nat.zero_add]
  | succ a ih =>
    rw [Nat.add_right_comm]
    rcases hs : step s with s' | r | r
    · rw [run_of_next hs] at h ⊢
      exact ih h
    · rw [run_of_fault hs] at h; cases h
    · rw [run_of_refused hs] at h; cases h

/-- An invariant of the step is one of every run. -/
theorem run_invariant {P : State → Prop} (hstep : ∀ s t, P s → step s = .next t → P t) (k : Nat) {s t : State}
    (hs : P s) (h : core.run k s = .next t) : P t := by
  induction k generalizing s with
  | zero => rw [run_zero] at h; cases h; exact hs
  | succ k ih =>
    rcases he : step s with s' | r | r
    · rw [run_of_next he] at h; exact ih (hstep s s' hs he) h
    · rw [run_of_fault he] at h; cases h
    · rw [run_of_refused he] at h; cases h

end Sys2Proof.Machine
end

