-- ==== Sys2Proof/Tests/Slice0.lean ====
section
/-! SUPPORT. Tests: expected values from spec/30_encoding.md, 95_test_vectors.md (its test table of symbols) and the worked
examples of the rules; and for every obligation with hypotheses a witness that meets them. -/

namespace Sys2Proof.Tests

open Sys2Proof Sys2Proof.Machine

/-- The test table of 95_test_vectors.md, `n` LEDs, `FULL16`, commands as one change of state. -/
def config (n : Nat) : Config := { ledCount := n, sym0 := 0xB0A0, sym1 := 0xB1A1, sym2 := 0xB2A2, sym3 := 0xB3A3 }

/-- The same under `LOW8`. -/
def configLow (n : Nat) : Config := { config n with storeMode := .low8 }

/-- The same as `config` at the slot level. -/
def configSlot (n : Nat) : Config := { config n with level := .slot }

/-- Initialised, between commands, all LEDs off (the state after `INIT`), with brightness `brt`. -/
def idle (c : Config) (brt : Byte) : State :=
  { State.resetWith c with
    phase := .idle, brt := brt, buf := fill c 0 [] (bufClear c []), wp := bufLen c, outputs := [.resp .success] }

/-- A transmit in flight. -/
def sending (c : Config) (brt : Byte) : State := handOver (idle c brt)

/-- After the start step of a `SHOW` of `ps` at the slot level. -/
def filling (n : Nat) (ps : List Pixel) : State := startFill ps (idle (configSlot n) 100)

/-- The state with words on the command port. -/
def offer (ws : List Word) (s : State) : State := { s with cmdPort := ws }

/-- The state with moves of the outside world to come. -/
def before (as : List Arrival) (s : State) : State := { s with arrivals := as }

/-! Well-formedness: ill-formed terms are refused. -/

theorem test_wf_refuses_65536_pixels (ps : List Pixel) (h : ps.length = 65536) : (Instr.showPixels ps).wf = false := by
  simp [Instr.wf, h]

theorem test_wf_refuses_no_leds : (config 0).wf = false := by decide

theorem test_wf_refuses_65536_leds : (config 65536).wf = false := by decide

theorem test_wf_admits_bounds : (config 1).wf = true ∧ (config 65535).wf = true := by decide

/-! Decoding: words written out from the fields of R51 and R52 (`op`, `z`, `hi`, `lo`; `pz`, `r`, `g`, `b`). -/

theorem test_decode_init_50 : decode [0b00000001_00000000_00000000_00110010] = .instr (.init 50) [] := by decide

theorem test_decode_setbrt_150 : decode [0b00000010_00000000_00000000_10010110] = .instr (.setbrt 150) [] := by decide

theorem test_decode_show_three :
    decode [0b00000011_00000000_00000000_00000011, 0b00000000_00011011_11100100_10001101,
      0b00000000_00000000_11111111_00000000, 0b00000000_00000000_00000000_11111111] =
    .instr (.showPixels [⟨27, 228, 141⟩, ⟨0, 255, 0⟩, ⟨0, 0, 255⟩]) [] := by decide

theorem test_decode_blank_leaves_the_rest :
    decode [0b00000011_00000000_00000000_00000000, 0x00FF0000] = .instr (.showPixels []) [0x00FF0000] := by decide

/-- The illegal words of 95_test_vectors.md 2.5, one word long each. -/
theorem test_decode_refuses_illegal_words :
    ([0x00000000, 0x00FF0000, 0x04000000, 0xFFFFFFFF, 0x01000100, 0x01010064, 0x02010032, 0x0200FF00, 0x03010000,
      0x03FF0002] : List Word).all (fun w => match decode [w, 0x01000064] with
        | .illegal _ rest => rest == [0x01000064]
        | .instr _ _ => false
        | .incomplete => false) = true := by decide

/-- 95_test_vectors.md 2.5: all three words of the command are consumed. -/
theorem test_decode_bad_pixel_consumes_all :
    decode [0x03000002, 0x00010203, 0x01040506, 0x02000005] = .illegal .pixelTopByteNotZero [0x02000005] := by decide

/-- R62. -/
theorem test_encode_worked :
    encode (.init 100) = [0x01000064] ∧ encode (.setbrt 100) = [0x02000064] ∧
    encode (.showPixels [⟨255, 255, 255⟩, ⟨0, 0, 0⟩, ⟨100, 200, 50⟩]) =
      [0x03000003, 0x00FFFFFF, 0x00000000, 0x0064C832] := by decide

theorem test_decodeTableWord :
    decodeTableWord 32 0x01000032 = some (.init 50) ∧ decodeTableWord 32 0x02000096 = some (.setbrt 150) ∧
    decodeTableWord 64 0x00FF000003000001 = some (.showPixels [⟨255, 0, 0⟩]) ∧
    decodeTableWord 32 0x03000002 = some (.showPixels [⟨0, 0, 0⟩, ⟨0, 0, 0⟩]) ∧
    decodeTableWord 32 0x04000000 = none := by decide

/-- R60, R61, R62. -/
theorem test_assemble_text :
    assembleText "INIT 50".toList = some [0x01000032] ∧
    assembleText "INIT ; default".toList = some [0x01000064] ∧
    assembleText "BLANK".toList = some [0x03000000] ∧
    assembleText "SHOW (255,0,0)".toList = some [0x03000001, 0x00FF0000] ∧
    assembleText "SETBRT 0x96".toList = some [0x02000096] ∧
    assembleText "SETBRT 256".toList = none := by decide

/-! The datapath (95_test_vectors.md 2.1 to 2.3). -/

theorem test_scale_floors :
    scale 199 1 = 1 ∧ scale 255 10 = 25 ∧ scale 128 75 = 96 ∧ scale 255 99 = 252 ∧ scale 1 99 = 0 := by decide

theorem test_group_order : (List.finRange 4).map (group 0x8D) = [2, 0, 3, 1] := by decide

theorem test_scaleGRB_order : scaleGRB ⟨27, 228, 141⟩ 100 = 0xE41B8D ∧ scaleGRB ⟨100, 200, 50⟩ 50 = 0x643219 := by decide

theorem test_encodePixel :
    encodePixel (config 1) ⟨100, 200, 50⟩ 50 =
      [0xB1A1, 0xB2A2, 0xB1A1, 0xB0A0, 0xB0A0, 0xB3A3, 0xB0A0, 0xB2A2, 0xB0A0, 0xB1A1, 0xB2A2, 0xB1A1] := by decide

/-! The buffer (95_test_vectors.md 2.4). -/

theorem test_symStore_full16 : symStore (config 1) [] 22 0xB1A1 = [(22, 0xA1), (23, 0xB1)] := by decide

theorem test_symStore_low8 : symStore (configLow 1) [(0, 0), (1, 0)] 0 0xB3A3 = [(0, 0xA3), (1, 0)] := by decide

/-! The commands, one step each. -/

/-- R90's example. -/
theorem test_init_50_hands_over_an_off_frame :
    ∃ t, step (offer [0x01000032] (State.resetWith (config 1))) = .next t ∧ t.brt = 50 ∧ t.phase = .tx ∧
      t.outputs = [.txStart (List.replicate 12 [0xA0, 0xB0]).flatten] := ⟨_, rfl, by decide⟩

/-- 95_test_vectors.md 2.6, row 4. -/
theorem test_init_101_faults :
    ∃ t, step (offer [0x01000065] (State.resetWith (config 3))) = .next t ∧ t.phase = .uninit ∧ t.brt = 100 ∧
      t.err = 0b1000 ∧ t.outputs = [.resp (.failed .brightnessRange)] := ⟨_, rfl, by decide⟩

/-- 95_test_vectors.md 2.7, row 3. -/
theorem test_setbrt_150_is_stored :
    ∃ t, step (offer [0x02000096] (idle (config 1) 50)) = .next t ∧ t.brt = 150 ∧ t.phase = .idle ∧ t.err = 0 :=
  ⟨_, rfl, by decide⟩

/-- 95_test_vectors.md 2.6, row 2. -/
theorem test_setbrt_before_init_faults :
    ∃ t, step (offer [0x02000032] (State.resetWith (config 3))) = .next t ∧ t.brt = 100 ∧ t.err = 0b0010 ∧
      t.outputs = [.resp (.failed .notInitialized)] := ⟨_, rfl, by decide⟩

/-- 95_test_vectors.md P4, LED 0 of its first frame. -/
theorem test_show_full16_frame :
    ∃ t, step (offer [0x03000001, 0x001BE48D] (idle (config 1) 100)) = .next t ∧ t.phase = .tx ∧
      t.outputs.getLast? = some (.txStart
        [0xA3, 0xB3, 0xA2, 0xB2, 0xA1, 0xB1, 0xA0, 0xB0, 0xA0, 0xB0, 0xA1, 0xB1, 0xA2, 0xB2, 0xA3, 0xB3,
         0xA2, 0xB2, 0xA0, 0xB0, 0xA3, 0xB3, 0xA1, 0xB1]) := ⟨_, rfl, by decide⟩

/-- 95_test_vectors.md 2.4, under `LOW8`. -/
theorem test_show_low8_frame :
    ∃ t, step (offer [0x03000001, 0x00FFFFFF] (idle (configLow 1) 50)) = .next t ∧
      t.outputs.getLast? = some (.txStart
        [0xA1, 0, 0xA3, 0, 0xA3, 0, 0xA3, 0, 0xA1, 0, 0xA3, 0, 0xA3, 0, 0xA3, 0,
         0xA1, 0, 0xA3, 0, 0xA3, 0, 0xA3, 0]) := ⟨_, rfl, by decide⟩

/-- R111, step 12: the last slot of the only pixel, with an LED left to turn off. -/
theorem test_enc_step_12 :
    ∃ t, step { filling 2 [⟨255, 0, 0⟩] with k := 11, wp := 22, sc := 0x00FF00 } = .next t ∧ t.phase = .off ∧ t.wp = 24 :=
  ⟨_, rfl, by decide⟩

/-- R111, step 24: the last slot of the buffer; the frame has 48 bytes. -/
theorem test_off_step_24 :
    ∃ t, step { filling 2 [⟨255, 0, 0⟩] with phase := .off, i := 1, wp := 46, sc := 0x00FF00 } = .next t ∧
      t.phase = .tx ∧ t.wp = 48 ∧ t.frame.length = 48 := ⟨_, rfl, by decide⟩

/-- 95_test_vectors.md 2.9: the `SETBRT 5` held while a frame is sent is still presented after a `Reset`. -/
theorem test_reset_leaves_the_held_word :
    ∃ t, step (before [.reset] (offer [0x02000005] (sending (config 1) 100))) = .next t ∧ t.phase = .uninit ∧
      t.brt = 100 ∧ t.err = 0 ∧ t.cmdPort = [0x02000005] := ⟨_, rfl, by decide⟩

/-! Witnesses: each obligation's hypotheses met together, its clauses at the bounds of their ranges. -/

/-- The most pixels a count can say. -/
theorem wf_of_65535_pixels : ∃ ps : List Pixel, ps.length = 65535 ∧ (Instr.showPixels ps).wf = true := by
  have key (n : Nat) (h : n ≤ 65535) : ∃ ps : List Pixel, ps.length = n ∧ (Instr.showPixels ps).wf = true :=
    ⟨List.replicate n ⟨255, 255, 255⟩, List.length_replicate, decide_eq_true (by rwa [List.length_replicate])⟩
  exact key 65535 (Nat.le_refl _)

theorem witness_DecodeOfEncodeIsTheCommand :
    (Instr.init 255).wf = true ∧ (Instr.setbrt 0).wf = true ∧ (Instr.showPixels []).wf = true ∧
    (∃ ps : List Pixel, ps.length = 65535 ∧ (Instr.showPixels ps).wf = true) :=
  ⟨rfl, rfl, rfl, wf_of_65535_pixels⟩

theorem witness_DecodedWordsAreTheEncoding :
    decode [0x03000001, 0x00FF8040, 0x01000064] = .instr (.showPixels [⟨255, 128, 64⟩]) [0x01000064] ∧
    decode [0x010000FF] = .instr (.init 255) [] ∧ decode [0x02000000] = .instr (.setbrt 0) [] := by decide

/-- Each clause of the decoder's map: the least and the greatest reserved field, the least and the greatest operand, the
opcodes beside the defined ones, a count one short and just met. -/
theorem witness_DecodeFollowsTheOpcodeMap :
    ((0x01000100 : Word).toNat / 2 ^ 24 = 1 ∧ (0x01000100 : Word).toNat / 2 ^ 8 % 2 ^ 16 ≠ 0) ∧
    ((0x01FFFFFF : Word).toNat / 2 ^ 24 = 1 ∧ (0x01FFFFFF : Word).toNat / 2 ^ 8 % 2 ^ 16 ≠ 0) ∧
    ((0x010000FF : Word).toNat / 2 ^ 24 = 1 ∧ (0x010000FF : Word).toNat / 2 ^ 8 % 2 ^ 16 = 0) ∧
    ((0x02000100 : Word).toNat / 2 ^ 24 = 2 ∧ (0x02000100 : Word).toNat / 2 ^ 8 % 2 ^ 16 ≠ 0) ∧
    ((0x020000FF : Word).toNat / 2 ^ 24 = 2 ∧ (0x020000FF : Word).toNat / 2 ^ 8 % 2 ^ 16 = 0) ∧
    ((0x03010000 : Word).toNat / 2 ^ 24 = 3 ∧ (0x03010000 : Word).toNat / 2 ^ 16 % 2 ^ 8 ≠ 0) ∧
    ((0x03000001 : Word).toNat / 2 ^ 24 = 3 ∧ (0x03000001 : Word).toNat / 2 ^ 16 % 2 ^ 8 = 0 ∧
      ([] : List Word).length < (0x03000001 : Word).toNat % 2 ^ 16) ∧
    (∃ x ∈ ([0x01000000] : List Word).take ((0x03000001 : Word).toNat % 2 ^ 16), x.toNat / 2 ^ 24 ≠ 0) ∧
    (∀ x ∈ ([0x00FFFFFF] : List Word).take ((0x03000001 : Word).toNat % 2 ^ 16), x.toNat / 2 ^ 24 = 0) ∧
    ((0x00FFFFFF : Word).toNat / 2 ^ 24 ≠ 1 ∧ (0x00FFFFFF : Word).toNat / 2 ^ 24 ≠ 2 ∧
      (0x00FFFFFF : Word).toNat / 2 ^ 24 ≠ 3) ∧
    ((0x04000000 : Word).toNat / 2 ^ 24 ≠ 1 ∧ (0x04000000 : Word).toNat / 2 ^ 24 ≠ 2 ∧
      (0x04000000 : Word).toNat / 2 ^ 24 ≠ 3) := by simp

theorem witness_AssemblerRefusesExactlyWhatDoesNotFit :
    assemble (.showPixels [(255, 0, 0)]) = some [0x03000001, 0x00FF0000] ∧ assemble (.showPixels [(256, 0, 0)]) = none ∧
    assemble (.init (some 255)) = some [0x010000FF] ∧ assemble (.init (some 256)) = none ∧
    assemble (.setbrt 255) = some [0x020000FF] ∧ assemble (.setbrt 256) = none ∧ 255 ≤ 255 ∧ 0 ≤ 255 := by decide

theorem witness_StepRunsTheDecodedCommand :
    (let s := offer [0x02000005] (idle (config 1) 100)
     s.phase = .idle ∧ s.arrivals = [] ∧ decode (s.rx ++ s.cmdPort) = .instr (.setbrt 5) []) ∧
    (let s := before [.quiet] (offer [0x01000005] (State.resetWith (config 1)))
     s.phase = .uninit ∧ s.arrivals = [.quiet] ∧ decode (s.rx ++ s.cmdPort) = .instr (.init 5) []) ∧
    (let s := before [.word 0x00FF0000] { idle (config 1) 100 with rx := [0x03000001] }
     s.phase = .idle ∧ s.arrivals = [.word 0x00FF0000] ∧
      decode (s.rx ++ (s.cmdPort ++ [0x00FF0000])) = .instr (.showPixels [⟨255, 0, 0⟩]) []) := by decide

theorem witness_IllegalWordsAreConsumedAndReported :
    (let s := offer [0x00000000] (State.resetWith (config 1))
     s.phase = .uninit ∧ s.arrivals = [] ∧ decode (s.rx ++ s.cmdPort) = .illegal .undefinedOpcode []) ∧
    (let s := before [.word 0xFF000000] { idle (config 1) 100 with rx := [0x03000001] }
     s.phase = .idle ∧ s.arrivals = [.word 0xFF000000] ∧
      decode (s.rx ++ (s.cmdPort ++ [0xFF000000])) = .illegal .pixelTopByteNotZero []) ∧
    decode [0x03010002, 0, 0] = .illegal .reservedNotZero [0, 0] := by decide

theorem witness_WordsWaitWhileBusy :
    (let s := before [.word 0x02000005] (sending (config 1) 100)
     s.busy = true ∧ s.arrivals = [.word 0x02000005]) ∧
    (let s := before [.word 0x02000005] (filling 1 [])
     s.busy = true ∧ s.arrivals.head? ≠ some .reset ∧ ∃ t, step s = .next t) ∧
    (let s := before [.txDone] (offer [0x02000005] (sending (config 1) 100))
     s.phase = .tx ∧ s.rx = [] ∧ decode s.cmdPort = .instr (.setbrt 5) [] ∧ s.arrivals = [.txDone]) :=
  ⟨by decide, ⟨by decide, by decide, _, rfl⟩, by decide⟩

theorem witness_IncompleteShowWaitsForItsWords :
    (let s := offer [0x03000002, 0x00010203] (idle (config 1) 100)
     s.phase = .idle ∧ opField 0x03000002 = 0x03 ∧ zField 0x03000002 = 0 ∧
      ([0x00010203] : List Word).length < countField 0x03000002 ∧ s.rx = [] ∧
      s.cmdPort = 0x03000002 :: [0x00010203] ∧ s.arrivals = []) ∧
    (let s := before (.quiet :: ([0x00040506] : List Word).map .word) (offer [0x03000002, 0x00010203] (idle (config 1) 100))
     s.arrivals = .quiet :: ([0x00040506] : List Word).map .word ∧
      ([0x00010203] : List Word).length + ([0x00040506] : List Word).length = countField 0x03000002 ∧
      (∀ x ∈ ([0x00010203] : List Word) ++ [0x00040506], opField x = 0)) ∧
    (∃ x ∈ ([0x00010203] : List Word) ++ [0x02000005], opField x ≠ 0) ∧
    (before [.quiet, .reset] (offer [0x0300FFFF] (State.resetWith (config 1)))).arrivals = .quiet :: .reset :: [] :=
  ⟨by decide, ⟨rfl, by decide, by simp; decide⟩, ⟨0x02000005, by simp, by decide⟩, rfl⟩

theorem witness_PlacedTableWordRunsNext : decodeTableWord 32 0x02000096 = some (.setbrt 150) := by decide

theorem witness_TableBitsDecodeToTheCommand :
    (Instr.init 255).wf = true ∧ (Instr.setbrt 0).wf = true ∧ (Instr.showPixels []).wf = true ∧
    (Instr.showPixels [⟨255, 0, 1⟩]).wf = true ∧ 65535 ≤ 65535 := by decide

theorem witness_ResetAbandonsWhateverRuns :
    (before [.reset, .txDone] (sending (config 1) 100)).arrivals = [.reset, .txDone] ∧
    (let s := before [.reset, .word 0x01000064] (filling 1 [⟨1, 2, 3⟩])
     s.arrivals = [.reset, .word 0x01000064] ∧ decode (s.cmdPort ++ [0x01000064]) = .instr (.init 100) []) := by decide

theorem witness_ResetLeavesTheStatedValues :
    (before [.reset] (filling 1 [⟨1, 2, 3⟩])).arrivals = [.reset] ∧ (State.started (config 1) [.txDone]).arrivals = [.txDone] :=
  by decide

theorem witness_FaultEntrySetsOneBitAndResponds :
    let s := filling 1 []
    s.busy = true ∧ s.arrivals.head? ≠ some .reset ∧ ∃ t, step s = .next t := ⟨rfl, by decide, _, rfl⟩

theorem witness_BadLedCountIsRefusedAtInstantiation :
    State.instantiate (config 0) = none ∧ State.instantiate (config 65536) = none ∧
    (1 ≤ (config 1).ledCount ∧ (config 1).ledCount ≤ 65535) ∧ (1 ≤ (config 65535).ledCount ∧ (config 65535).ledCount ≤ 65535) :=
  by decide

theorem witness_NoStepWritesTheConfiguration : ∃ t, step (offer [0x01000064] (State.resetWith (config 1))) = .next t :=
  ⟨_, rfl⟩

theorem witness_TxDoneEndsTheWaitOrIsIgnored :
    (let s := before [.txDone] (sending (config 1) 100); s.arrivals = [.txDone] ∧ s.phase = .tx) ∧
    (let s := before [.txDone] (filling 1 []); s.arrivals = [.txDone] ∧ s.phase ≠ .tx) := by decide

theorem witness_UnansweredTransmitWaitsForEver :
    (let s := before [.word 0x02000005, .quiet] (sending (config 1) 100)
     s.phase = .tx ∧ NoAnswer s.arrivals) ∧
    (let s := before [.reset] (sending (config 1) 100); s.phase = .tx ∧ s.arrivals = [.reset]) := by
  refine ⟨⟨rfl, ?_⟩, by decide⟩
  simp [NoAnswer, before]

theorem witness_AnsweredTransmitCompletesTheCommand :
    let s := before [.word 0x02000005, .txDone] (sending (config 1) 100)
    s.phase = .tx ∧ s.arrivals = [.word 0x02000005] ++ .txDone :: [] ∧ NoAnswer [.word 0x02000005] := by
  refine ⟨rfl, rfl, ?_⟩
  simp [NoAnswer]

theorem witness_BufferIsStableDuringTransmit :
    let s := before [.word 0x01000064] (sending (config 1) 100)
    s.phase = .tx ∧ s.arrivals.head? ≠ some .reset ∧ ∃ t, step s = .next t := ⟨by decide, by decide, _, rfl⟩

theorem witness_FaultsAreReportedInPriorityOrder :
    (let s := offer [0x010001C8] (State.resetWith (config 3))
     s.phase = .uninit ∧ s.arrivals.head? ≠ some .reset ∧ s.arrivals.head? ≠ some .txDone ∧
      decode s.wordsSeen = .illegal .reservedNotZero []) ∧
    (State.resetWith (config 3)).phase = .uninit ∧
    (let s := idle (config 1) 150
     s.phase = .idle ∧ s.cfg.ledCount < [(⟨1, 2, 3⟩ : Pixel), ⟨4, 5, 6⟩].length) ∧
    (let s := idle (config 1) 101
     s.phase = .idle ∧ [(⟨1, 2, 3⟩ : Pixel)].length ≤ s.cfg.ledCount ∧ 100 < s.brt.toNat) ∧
    (let s := idle (config 1) 50; s.phase = .idle ∧ 100 < (101 : Byte).toNat) := by decide

/-- A fault of each kind a command reports. -/
theorem witness_CommandsFaultOnNoOtherCondition :
    (let s := State.resetWith (config 1)
     s.phase = .uninit ∧ ∃ t, exec (.setbrt 5) s = .next t ∧ t.outputs = s.outputs ++ [.resp (.failed .notInitialized)]) ∧
    (let s := idle (config 1) 101
     s.phase = .idle ∧ ∃ t, exec (.showPixels []) s = .next t ∧ t.outputs = s.outputs ++ [.resp (.failed .brightnessRange)]) ∧
    (let s := idle (config 1) 100
     s.phase = .idle ∧ ∃ t, exec (.showPixels [⟨0, 0, 0⟩, ⟨0, 0, 0⟩]) s = .next t ∧
      t.outputs = s.outputs ++ [.resp (.failed .invalidArgument)]) :=
  ⟨⟨rfl, _, rfl, rfl⟩, ⟨rfl, _, rfl, rfl⟩, ⟨rfl, _, rfl, rfl⟩⟩

theorem witness_ErrBitsAreStickyUntilReset :
    (let s := offer [0x01000032] { idle (config 1) 50 with err := 0b0101 }
     (∃ t, step s = .next t) ∧ s.arrivals.head? ≠ some .reset ∧ s.err.getLsbD 2 = true) ∧
    (before [.reset] { idle (config 1) 50 with err := 0b0101 }).arrivals = [.reset] := ⟨⟨⟨_, rfl⟩, by decide⟩, rfl⟩

theorem witness_ErrZeroMeansNoFaultWasReported :
    Arrival.reset ∉ [Arrival.word 0x01000032] ∧
    ∃ t, core.run 1 (State.started (config 1) [.word 0x01000032]) = .next t ∧ NoCommandFault t :=
  ⟨by decide, _, rfl, rfl⟩

theorem witness_SetbrtWritesBrightnessAndNothingElse :
    (idle (config 1) 100).phase = .idle ∧ (State.resetWith (config 1)).phase = .uninit := by decide

theorem witness_InitTurnsEveryLedOff :
    (let s := State.resetWith (config 1); s.phase = .uninit ∧ s.cfg.level = .command ∧ (100 : Byte).toNat ≤ 100) ∧
    (let s := idle (configLow 1) 150; s.phase = .idle ∧ s.cfg.level = .command ∧ (0 : Byte).toNat ≤ 100) ∧
    100 < (101 : Byte).toNat := by decide

theorem witness_InitAtSlotLevelClearsAndStarts :
    (let s := State.resetWith (configSlot 1); s.phase = .uninit ∧ s.cfg.level = .slot ∧ (100 : Byte).toNat ≤ 100) ∧
    (let s := idle (configSlot 1) 150; s.phase = .idle ∧ s.cfg.level = .slot ∧ (0 : Byte).toNat ≤ 100) := by decide

/-- No pixel and `N` pixels; brightness 0 and 100; both store modes. -/
theorem witness_ShowFillsTheBufferAndHandsItOver :
    (let s := idle (config 1) 100
     s.phase = .idle ∧ s.cfg.level = .command ∧ [(⟨1, 2, 3⟩ : Pixel)].length ≤ s.cfg.ledCount ∧
      s.brt.toNat = (100 : Brightness).val) ∧
    (let s := idle (configLow 1) 0
     s.phase = .idle ∧ s.cfg.level = .command ∧ ([] : List Pixel).length ≤ s.cfg.ledCount ∧
      s.brt.toNat = (0 : Brightness).val) ∧
    (State.resetWith (config 1)).phase = .uninit ∧
    (let s := idle (config 1) 101
     s.phase = .idle ∧ s.cfg.ledCount < [(⟨1, 2, 3⟩ : Pixel), ⟨4, 5, 6⟩].length ∧
      [(⟨1, 2, 3⟩ : Pixel)].length ≤ s.cfg.ledCount ∧ 100 < s.brt.toNat) := by decide

theorem witness_ShowAtSlotLevelSetsTheLatches :
    (let s := idle (configSlot 1) 100
     s.phase = .idle ∧ s.cfg.level = .slot ∧ [(⟨1, 2, 3⟩ : Pixel)].length ≤ s.cfg.ledCount ∧ s.brt.toNat ≤ 100 ∧
      1 ≤ [(⟨1, 2, 3⟩ : Pixel)].length) ∧
    (let s := idle (configSlot 1) 0
     s.phase = .idle ∧ s.cfg.level = .slot ∧ ([] : List Pixel).length ≤ s.cfg.ledCount ∧ s.brt.toNat ≤ 100) := by decide

/-- With nothing to come, and on a `quiet` move; the first slot; a slot inside; the last slot of a pixel that is not the last, that is the last with an LED left, and
that is the last with none left. -/
theorem witness_EncStepWritesOneLitSlot :
    (let s := filling 1 [⟨255, 0, 0⟩]
     s.phase = .enc ∧ s.arrivals = [] ∧ s.i < s.npix ∧ s.k ≤ 11 ∧ s.wp = 24 * s.i + 2 * s.k ∧ s.npix = s.pq.length ∧
      s.npix ≤ s.cfg.ledCount ∧ s.pq[s.i]? = some ⟨255, 0, 0⟩ ∧ s.bl.toNat = (100 : Brightness).val ∧
      (0 < s.k → s.sc = scaleGRB ⟨255, 0, 0⟩ 100)) ∧
    (let s := before [.quiet, .reset] (filling 1 [⟨255, 0, 0⟩])
     s.phase = .enc ∧ s.arrivals = .quiet :: [.reset] ∧ s.i < s.npix ∧ s.k ≤ 11 ∧ s.wp = 24 * s.i + 2 * s.k ∧
      s.npix = s.pq.length ∧ s.npix ≤ s.cfg.ledCount ∧ s.pq[s.i]? = some ⟨255, 0, 0⟩ ∧
      s.bl.toNat = (100 : Brightness).val ∧ (0 < s.k → s.sc = scaleGRB ⟨255, 0, 0⟩ 100)) ∧
    (∀ k : Fin 12, ∀ n : Fin 2,
     let s := { filling (n.val + 1) [⟨255, 0, 0⟩] with k := k.val, wp := 2 * k.val, sc := 0x00FF00 }
     s.phase = .enc ∧ s.arrivals = [] ∧ s.i < s.npix ∧ s.k ≤ 11 ∧ s.wp = 24 * s.i + 2 * s.k ∧ s.npix = s.pq.length ∧
      s.npix ≤ s.cfg.ledCount ∧ s.pq[s.i]? = some ⟨255, 0, 0⟩ ∧ s.bl.toNat = (100 : Brightness).val ∧
      s.sc = scaleGRB ⟨255, 0, 0⟩ 100 ∧ s.i + 1 = s.npix ∧ (s.npix = s.cfg.ledCount ↔ n.val = 0)) ∧
    (let s := { filling 2 [⟨255, 0, 0⟩, ⟨0, 0, 0⟩] with k := 11, wp := 22, sc := 0x00FF00 }
     s.phase = .enc ∧ s.wp = 24 * s.i + 2 * s.k ∧ s.pq[s.i]? = some ⟨255, 0, 0⟩ ∧ s.k = 11 ∧ s.i + 1 < s.npix ∧
      s.npix ≤ s.cfg.ledCount) := by decide

theorem witness_OffStepWritesOneOffSlot :
    (let s := filling 1 []
     s.phase = .off ∧ s.arrivals = [] ∧ s.wp % 2 = 0 ∧ 24 * s.npix ≤ s.wp ∧ s.wp + 2 ≤ 24 * s.cfg.ledCount ∧
      s.wp + 2 ≠ 24 * s.cfg.ledCount) ∧
    (let s := { filling 1 [] with wp := 22 }
     s.phase = .off ∧ s.arrivals = [] ∧ s.wp % 2 = 0 ∧ 24 * s.npix ≤ s.wp ∧ s.wp + 2 = 24 * s.cfg.ledCount) ∧
    (let s := before [.quiet, .reset] (filling 1 [])
     s.phase = .off ∧ s.arrivals = .quiet :: [.reset] ∧ s.wp % 2 = 0 ∧ 24 * s.npix ≤ s.wp ∧
      s.wp + 2 ≤ 24 * s.cfg.ledCount ∧ s.wp + 2 ≠ 24 * s.cfg.ledCount) := by decide

theorem witness_SlotStepsAgreeWithTheAtomicCommand :
    let s := idle (configSlot 1) 100
    s.arrivals = [] ∧ 1 ≤ s.cfg.ledCount ∧ [(⟨255, 0, 0⟩ : Pixel)].length ≤ s.cfg.ledCount ∧
      ([] : List Pixel).length ≤ s.cfg.ledCount ∧ s.brt.toNat = (100 : Brightness).val := by decide

/-- Before the first store, and before the last; within the lit pixels, and past them. -/
theorem witness_FillWritesItsSlotsInOrder :
    (let s := idle (configSlot 1) 100
     s.arrivals = [] ∧ [(⟨255, 0, 0⟩ : Pixel)].length ≤ s.cfg.ledCount ∧ s.brt.toNat = (100 : Brightness).val ∧
      0 < 12 * s.cfg.ledCount ∧ 11 < 12 * s.cfg.ledCount ∧ 11 < 12 * [(⟨255, 0, 0⟩ : Pixel)].length) ∧
    (let s := idle (configSlot 2) 0
     s.arrivals = [] ∧ [(⟨255, 0, 0⟩ : Pixel)].length ≤ s.cfg.ledCount ∧ s.brt.toNat = (0 : Brightness).val ∧
      12 < 12 * s.cfg.ledCount ∧ 12 * [(⟨255, 0, 0⟩ : Pixel)].length ≤ 12 ∧ 0 < 12 ∧ 11 < 12 ∧
      s.cfg.storeMode = .full16) ∧
    (let s := idle { configLow 1 with level := .slot } 100
     s.arrivals = [] ∧ ([] : List Pixel).length ≤ s.cfg.ledCount ∧ s.brt.toNat = (100 : Brightness).val ∧
      11 < 12 * s.cfg.ledCount ∧ s.cfg.storeMode = .low8) := by decide

theorem witness_ShowIsIdempotent :
    let s := idle (config 1) 100
    s.phase = .idle ∧ s.cfg.level = .command ∧ ∃ t u v, exec (.showPixels [⟨255, 0, 0⟩]) s = .next t ∧ t.phase = .tx ∧
      step { t with arrivals := .txDone :: [] } = .next u ∧ exec (.showPixels [⟨255, 0, 0⟩]) u = .next v :=
  ⟨rfl, rfl, _, _, _, rfl, rfl, rfl, rfl⟩

/-- Initialised, between commands, the buffer as a `SHOW` of `ps` at brightness `b` left it. -/
def shown (c : Config) (brt : Byte) (b : Brightness) (ps : List Pixel) : State :=
  { idle c brt with buf := fill c b ps (bufClear c []) }

/-- The odd bytes of a buffer cleared and filled. -/
theorem filled_read_odd (c : Config) (b : Brightness) (ps : List Pixel) (hn : ps.length ≤ c.ledCount) (j : Nat)
    (hj : j < slotCount c) : (fill c b ps (bufClear c [])).read (2 * j + 1) =
      some (if c.storeMode = .full16 then highByte (filledSymbol c b ps (j / 12) (j % 12)) else 0) := by
  rw [fill_read_odd _ hn hj, bufClear_read, if_pos (show 2 * j + 1 < bufLen c by rw [bufLen]; rw [slotCount] at hj; omega)]
  split <;> rfl

/-- Every slot of a buffer cleared and filled holds a symbol of the table. -/
theorem filled_slots_legal (c : Config) (b : Brightness) (ps : List Pixel) (hn : ps.length ≤ c.ledCount) (j : Nat)
    (hj : j < slotCount c) : SlotLegal c (fill c b ps (bufClear c [])) (2 * j) := by
  have h : SlotHolds c (fill c b ps (bufClear c [])) (2 * j) (filledSymbol c b ps (j / 12) (j % 12)) :=
    ⟨fill_read_even _ hn hj, filled_read_odd c b ps hn j hj⟩
  unfold filledSymbol at h
  split at h
  · exact ⟨_, h⟩
  · exact ⟨0, h⟩

/-- Such a state meets the invariant. -/
theorem shown_meets_invariant (c : Config) (brt : Byte) (b : Brightness) (ps : List Pixel) (h : c.wf = true)
    (hn : ps.length ≤ c.ledCount) : BlockInv (shown c brt b ps) where
  config := h
  bufUnwritten := nofun
  bufExtent _ := fill_offsets (bufClear_offsets (.inl rfl)) hn
  slotsComplete _ j hj := filled_slots_legal c b ps hn j hj
  slotsWritten := by simp [shown, idle]
  oddBytesClear _ hm j hj := by
    have hm' : c.storeMode = .low8 := hm
    exact (filled_read_odd c b ps hn j hj).trans (by simp [hm'])
  wpRange := by simp only [shown, idle, State.resetWith, bufLen]; omega
  latchRange := by simp [shown, idle, State.resetWith]
  fillBrightness := nofun
  encPosition := nofun
  encLatch := nofun
  offPosition := nofun
  txPosition := nofun
  atomicCommands _ := by simp [shown, idle]
  wordsHeld := rfl
  noWordsWhileBusy := nofun
  frameInFlight := nofun
  answeredWhenIdle _ := ⟨.success, rfl⟩
  frameLength := by simp [shown, idle]

/-- The state after `INIT` meets it. -/
theorem idle_meets_invariant (c : Config) (brt : Byte) (h : c.wf = true) : BlockInv (idle c brt) :=
  shown_meets_invariant c brt 0 [] h (Nat.zero_le _)

/-- Two initialised blocks, the second of which has shown a white LED before. -/
theorem witness_FrameForgetsEarlierShows :
    let s := idle (config 1) 100
    let s' := shown (config 1) 100 100 [⟨255, 255, 255⟩]
    BlockInv s ∧ BlockInv s' ∧ s.phase = .idle ∧ s'.phase = .idle ∧ s.cfg = s'.cfg ∧ s.cfg.level = .command ∧
      s.brt = s'.brt ∧ s.buf ≠ s'.buf ∧ ∃ t t', exec (.showPixels [⟨255, 0, 0⟩]) s = .next t ∧
        exec (.showPixels [⟨255, 0, 0⟩]) s' = .next t' ∧ t.phase = .tx :=
  ⟨idle_meets_invariant _ _ (by decide), shown_meets_invariant _ _ _ _ (by decide) (by decide), rfl, rfl, rfl, rfl, rfl,
    by decide, _, _, rfl, rfl, rfl⟩

theorem witness_LedBytesDependOnItsOwnPixelOnly :
    let ps : List Pixel := [⟨1, 2, 3⟩, ⟨9, 9, 9⟩]
    let qs : List Pixel := [⟨0, 0, 0⟩, ⟨9, 9, 9⟩]
    ps.length ≤ (config 2).ledCount ∧ qs.length ≤ (config 2).ledCount ∧ 1 < (config 2).ledCount ∧ ps[1]? = qs[1]? ∧
      24 * 1 ≤ 24 ∧ 47 < 24 * 1 + 24 := by decide

theorem witness_ScaleFollowsItsLaws :
    (99 : Byte).toNat ≤ (100 : Byte).toNat ∧ (0 : Brightness).val ≤ (1 : Brightness).val ∧
    (99 : Byte).toNat * (1 : Brightness).val < 100 ∧ ¬ (100 : Byte).toNat * (1 : Brightness).val < 100 := by decide

theorem witness_OnlyUsableBrightnessesScale :
    100 < (101 : Byte).toNat ∧ 100 < (255 : Byte).toNat ∧ (100 : Byte).toNat ≤ 100 ∧ (0 : Byte).toNat ≤ 100 := by decide

theorem witness_BlackPixelsEncodeAsOff :
    11 < 12 ∧ ([] : List Pixel).length < (config 1).ledCount ∧ [(⟨1, 2, 3⟩ : Pixel)].length < (config 2).ledCount ∧
    [(⟨1, 2, 3⟩ : Pixel)][0]? = some ⟨1, 2, 3⟩ ∧ [(⟨1, 2, 3⟩ : Pixel)].length ≤ 1 := by decide

theorem witness_StatusLevelsFollowTheState :
    (idle (config 1) 100).phase = .idle ∧ ∃ t, exec (.setbrt 5) (idle (config 1) 100) = .next t := ⟨rfl, _, rfl⟩

/-- 10_state.md R21, R15: transmitting with bits 0 and 2 of `ERR` set. -/
theorem test_control_registers :
    let s := { sending (config 65535) 255 with err := 0b0101 }
    s.controlRegister .ledcnt = 65535 ∧ s.controlRegister .brt = 255 ∧ s.controlRegister .status = 0b111100 ∧
      s.controlRegister .err = 0b0101 := by decide

theorem witness_ControlRegistersHoldTheirFields :
    (idle (config 65535) 100).cfg.ledCount ≤ 65535 ∧ (config 65535).wf = true ∧ (config 1).wf = true ∧
    (idle (config 1) 100).phase = .idle ∧ (State.resetWith (config 1)).phase = .uninit ∧ (100 : Byte).toNat ≤ 100 ∧
    (let s := offer [0x00000000] (idle (config 1) 100)
     s.arrivals.head? ≠ some .reset ∧ ∃ t, step s = .next t) :=
  ⟨by decide, by decide, by decide, rfl, rfl, by decide, by decide, _, rfl⟩

theorem witness_SymStoreWritesItsSlotOnly :
    (config 1).storeMode = .full16 ∧ (configLow 1).storeMode = .low8 ∧ (1 : Nat) ≠ 2 ∧ 1 ≠ 2 + 1 ∧ 4 ≠ 2 ∧ 4 ≠ 2 + 1 := by
  decide

theorem witness_MemReadGivesWhatMemWriteWrote : 0 < 2 ∧ 1 < 2 ∧ (3 < 4 ∨ 4 + 2 ≤ 3) ∧ (6 < 4 ∨ 4 + 2 ≤ 6) := by decide

theorem witness_BufClearZeroesTheBuffer : 23 < 24 * (config 1).ledCount ∧ 24 * (config 1).ledCount ≤ 24 := by decide

theorem witness_StepKeepsTheBufferCanonical :
    let s := offer [0x03000000] (idle (config 1) 100)
    s.buf.wf ∧ ∃ t, step s = .next t := by
  refine ⟨?_, _, rfl⟩
  rw [Memory.wf_iff_offsets, (show _ = _ from (idle_meets_invariant (config 1) 100 (by decide)).bufExtent (by decide) :
    (offer [0x03000000] (idle (config 1) 100)).buf.map Prod.fst = _)]
  exact List.pairwise_lt_range

theorem witness_BrightnessChangesOnlyByInitOrSetbrt :
    let s := offer [0x02000005] (idle (config 1) 100)
    s.arrivals.head? ≠ some .reset ∧ ∃ t, step s = .next t ∧ t.brt ≠ s.brt := ⟨by decide, _, rfl, by decide⟩

theorem witness_EachCommandEmitsOneEvent :
    let s := idle (config 1) 100
    s.phase = .idle ∧ s.cfg.level = .command ∧ (∃ t, exec (.showPixels []) s = .next t) ∧
      ∃ t, exec (.setbrt 0) s = .next t := ⟨rfl, rfl, ⟨_, rfl⟩, _, rfl⟩

theorem witness_EachStepEmitsAtMostOneEvent :
    (∃ t, step (offer [0x03000000] (idle (config 1) 100)) = .next t) ∧
    ∃ t, step (before [.txDone] (sending (config 1) 100)) = .next t := ⟨⟨_, rfl⟩, _, rfl⟩

/-- One state for each row of the table. -/
theorem witness_PhasesMoveOnlyAsTheTableSays :
    (∃ t, step (before [.reset] (filling 1 [])) = .next t ∧ t.phase = .uninit) ∧
    (∃ t, step (offer [0x01000064] (State.resetWith (configSlot 1))) = .next t ∧ t.phase = .off) ∧
    (∃ t, step (offer [0x03000001, 0] (idle (configSlot 1) 100)) = .next t ∧ t.phase = .enc) ∧
    (∃ t, step (offer [0x03000000] (idle (configSlot 1) 100)) = .next t ∧ t.phase = .off) ∧
    (∃ t, step { filling 1 [⟨0, 0, 0⟩] with k := 11, wp := 22 } = .next t ∧ t.phase = .tx) ∧
    (∃ t, step { filling 2 [⟨0, 0, 0⟩] with k := 11, wp := 22 } = .next t ∧ t.phase = .off) ∧
    (∃ t, step { filling 1 [] with wp := 22 } = .next t ∧ t.phase = .tx) ∧
    (∃ t, step (before [.txDone] (sending (configSlot 1) 100)) = .next t ∧ t.phase = .idle) ∧
    (configSlot 1).level = .slot ∧ 1 ≤ (configSlot 1).ledCount :=
  ⟨⟨_, rfl, rfl⟩, ⟨_, rfl, rfl⟩, ⟨_, rfl, rfl⟩, ⟨_, rfl, rfl⟩, ⟨_, rfl, rfl⟩, ⟨_, rfl, rfl⟩, ⟨_, rfl, rfl⟩, ⟨_, rfl, rfl⟩, by decide⟩

theorem witness_OnlyInitLeavesUninit :
    let s := offer [0x01000064] (State.resetWith (config 1))
    s.phase = .uninit ∧ (∃ t, step s = .next t ∧ t.phase ≠ .uninit) ∧
      ∃ t, step (offer [0x02000005] s) = .next t ∧ t.phase = .uninit := ⟨rfl, ⟨_, rfl, by decide⟩, _, rfl, rfl⟩

theorem witness_InvariantHoldsAfterReset : (config 1).wf = true ∧ (config 65535).wf = true := by decide

theorem witness_EveryStepKeepsTheInvariant :
    BlockInv (idle (configSlot 1) 100) ∧ ∃ t, step (idle (configSlot 1) 100) = .next t :=
  ⟨idle_meets_invariant _ _ (by decide), _, rfl⟩

theorem witness_InvariantStatesNeverStop : BlockInv (idle (configLow 1) 255) := idle_meets_invariant _ _ (by decide)

theorem witness_EveryRunGoesOnAndMeetsTheInvariant : (configSlot 65535).wf = true := by decide

end Sys2Proof.Tests
end

section
/-! PROOFS. The scope of the block (00_scope.md): the primitives `MemRead` and `MemWrite` (R7), the events a command and a
step emit (R9, R143), the configurations the model is built from (R4). -/

namespace Sys2Proof.Machine

/-! `MemWrite` and `MemRead` (R7). -/

theorem memWrite_read_outside (m : Memory) (a n v : Nat) {x : Nat} (h : x < a ∨ a + n ≤ x) :
    (memWrite m a n v).read x = m.read x := by
  induction n generalizing m a v with
  | zero => rfl
  | succ n ih => rw [memWrite, ih _ _ _ (by omega), Memory.read_write_other _ _ (by omega)]

theorem memWrite_read_byte (m : Memory) (a n v : Nat) {j : Nat} (h : j < n) :
    (memWrite m a n v).read (a + j) = some (BitVec.ofNat 8 (v / 256 ^ j)) := by
  induction n generalizing m a v j with
  | zero => omega
  | succ n ih =>
    rw [memWrite]
    cases j with
    | zero => simp [memWrite_read_outside _ (a + 1) n _ (x := a) (by omega)]
    | succ j =>
      rw [show a + (j + 1) = a + 1 + j by omega, ih _ _ _ (by omega), Nat.div_div_eq_div_mul, Nat.pow_succ']

/-- `MemRead` puts the bytes it finds together, the one at the lowest offset least significant. -/
theorem memRead_of_bytes (m : Memory) (a n v : Nat)
    (h : ∀ j, j < n → m.read (a + j) = some (BitVec.ofNat 8 (v / 256 ^ j))) :
    memRead m a n = some (v % 256 ^ n) := by
  induction n generalizing a v with
  | zero => simp [memRead, Nat.mod_one]
  | succ n ih =>
    have hlow : m.read a = some (BitVec.ofNat 8 v) := by simpa using h 0 (by omega)
    have hrest : memRead m (a + 1) n = some (v / 256 % 256 ^ n) := by
      refine ih _ _ fun j hj => ?_
      rw [show a + 1 + j = a + (j + 1) by omega, h _ (by omega), Nat.div_div_eq_div_mul, Nat.pow_succ']
    simp [memRead, hlow, hrest, Nat.pow_succ', Nat.mod_mul]

/-- Settles O43: `MemWrite` leaves byte `j` of the value at offset `a + j`, and `MemRead` puts such bytes together again. -/
theorem memReadGivesWhatMemWriteWrote : Obligations.MemReadGivesWhatMemWriteWrote := by
  intro m a n v
  have hbytes : ∀ j, j < n → (memWrite m a n v).read (a + j) = some (BitVec.ofNat 8 (v / 256 ^ j)) :=
    fun _ hj => memWrite_read_byte m a n v hj
  exact ⟨memRead_of_bytes _ a n v hbytes, hbytes, fun _ hx => memWrite_read_outside m a n v hx⟩

/-! The events of one command and of one step (R9, R143, R145). -/

/-- A fill at the command level hands over the buffer it leaves (R100). -/
theorem showBody_handsOver_of_command {b : Brightness} {ps : List Pixel} {s : State} (h : s.cfg.level = .command) :
    (showBody b ps s).outputs = s.outputs ++ [.txStart (showBody b ps s).frame] ∧ (showBody b ps s).phase = .tx := by
  simp [showBody_of_command h]

/-- Settles O49: a fault and a `SETBRT` respond; an `INIT` or `SHOW` that succeeds hands over its fill. -/
theorem eachCommandEmitsOneEvent : Obligations.EachCommandEmitsOneEvent := by
  intro i s t _ hlevel h
  rcases exec_cases h with ⟨c, _, rfl⟩ | ⟨v, _, _, rfl⟩ | ⟨b, u, rfl, _, rfl⟩ | ⟨ps, b, rfl, _, _, _, rfl⟩
  · exact .inl ⟨.failed c, by simp⟩
  · exact .inl ⟨.success, by simp⟩
  · obtain ⟨hout, hphase⟩ := showBody_handsOver_of_command (b := u) (ps := [])
      (s := { s with brt := b, buf := bufClear s.cfg s.buf }) hlevel
    exact .inr ⟨hout, hphase, nofun⟩
  · obtain ⟨hout, hphase⟩ := showBody_handsOver_of_command (b := b) (ps := ps) hlevel
    exact .inr ⟨hout, hphase, nofun⟩

/-- From `s` to `t` no event is emitted and `TX` is not entered, or one response outside `TX`, or one frame, the whole
buffer, on entering `TX`. -/
def EmitsAtMostOne (s t : State) : Prop :=
  (t.outputs = s.outputs ∧ (t.phase = .tx → s.phase = .tx)) ∨
  (∃ r, t.outputs = s.outputs ++ [.resp r] ∧ (t.phase = .uninit ∨ t.phase = .idle)) ∨
  (t.outputs = s.outputs ++ [.txStart t.frame] ∧ s.phase ≠ .tx ∧ t.phase = .tx)

/-- Of the state before, the outputs and the phase alone count. -/
theorem EmitsAtMostOne.of_before {s s' t : State} (h : EmitsAtMostOne s' t) (ho : s'.outputs = s.outputs)
    (hp : s'.phase = s.phase) : EmitsAtMostOne s t := by
  unfold EmitsAtMostOne at h ⊢
  rwa [ho, hp] at h

theorem raiseFault_emits {c : FaultCause} {s : State} (h : s.phase = .uninit ∨ s.phase = .idle) :
    EmitsAtMostOne s (raiseFault c s) :=
  .inr (.inl ⟨.failed c, raiseFault_outputs c s, h⟩)

theorem handOver_emits {s : State} (h : s.phase ≠ .tx) : EmitsAtMostOne s (handOver s) :=
  .inr (.inr ⟨handOver_outputs s, h, handOver_phase s⟩)

theorem startFill_emits (ps : List Pixel) (s : State) : EmitsAtMostOne s (startFill ps s) := by
  refine .inl ⟨startFill_outputs ps s, fun h => ?_⟩
  rw [startFill_phase] at h
  split at h <;> cases h

theorem showBody_emits {b : Brightness} {ps : List Pixel} {s : State} (h : s.phase ≠ .tx) :
    EmitsAtMostOne s (showBody b ps s) := by
  cases hlevel : s.cfg.level with
  | command =>
    obtain ⟨hout, hphase⟩ := showBody_handsOver_of_command (b := b) (ps := ps) hlevel
    exact .inr (.inr ⟨hout, h, hphase⟩)
  | slot => rw [showBody_of_slot hlevel]; exact startFill_emits ps s

theorem exec_emits {i : Instr} {s t : State} (h : exec i s = .next t) (hp : s.phase = .uninit ∨ s.phase = .idle) :
    EmitsAtMostOne s t := by
  have htx : s.phase ≠ .tx := by rcases hp with hp | hp <;> simp [hp]
  rcases exec_cases h with ⟨c, _, rfl⟩ | ⟨v, _, _, rfl⟩ | ⟨b, u, _, _, rfl⟩ | ⟨ps, b, _, _, _, _, rfl⟩
  · exact raiseFault_emits hp
  · exact .inr (.inl ⟨.success, rfl, hp⟩)
  · exact (showBody_emits (s := { s with brt := b, buf := bufClear s.cfg s.buf }) htx).of_before rfl rfl
  · exact showBody_emits htx

theorem takeTxDone_emits (s : State) : EmitsAtMostOne s (takeTxDone s) := by
  by_cases h : s.phase = .tx
  · rw [takeTxDone_of_tx h]; exact .inr (.inl ⟨.success, rfl, .inr rfl⟩)
  · rw [takeTxDone_of_ne_tx h]; exact .inl ⟨rfl, id⟩

theorem encAdvance_emits {s : State} (h : s.phase ≠ .tx) : EmitsAtMostOne s (encAdvance s) := by
  rcases encAdvance_cases s with ⟨_, e⟩ | ⟨_, _, _, e⟩ | ⟨_, _, _, e⟩ | ⟨_, _, e⟩ <;> rw [e]
  · exact .inl ⟨rfl, id⟩
  · exact .inl ⟨rfl, nofun⟩
  · exact (handOver_emits (s := { s with k := 0, i := s.i + 1 }) h).of_before rfl rfl
  · exact .inl ⟨rfl, id⟩

theorem offAdvance_emits {s : State} (h : s.phase ≠ .tx) : EmitsAtMostOne s (offAdvance s) := by
  rcases offAdvance_cases s with ⟨_, e⟩ | ⟨_, e⟩ <;> rw [e]
  · exact handOver_emits h
  · exact .inl ⟨rfl, id⟩

theorem encStep_emits {s t : State} (h : encStep s = .next t) (hp : s.phase = .enc) : EmitsAtMostOne s t := by
  obtain ⟨_, sc, _, rfl⟩ := encStep_cases h
  exact (encAdvance_emits (by simp [hp])).of_before rfl rfl

theorem offStep_emits {s t : State} (h : offStep s = .next t) (hp : s.phase = .off) : EmitsAtMostOne s t := by
  obtain ⟨_, rfl⟩ := offStep_cases h
  exact (offAdvance_emits (by simp [hp])).of_before rfl rfl

/-- Settles O50, case by case over what a step can be. -/
theorem eachStepEmitsAtMostOneEvent : Obligations.EachStepEmitsAtMostOneEvent := by
  intro s t h
  change EmitsAtMostOne s t
  cases step_cases h with
  | reset as _ => exact .inl ⟨rfl, nofun⟩
  | txDone as _ => exact (takeTxDone_emits _).of_before rfl rfl
  | held as ws _ _ => exact .inl ⟨rfl, id⟩
  | command as ws _ hp i rest _ _ ht => exact (exec_emits ht hp).of_before rfl rfl
  | illegal as ws _ hp why rest _ => exact (raiseFault_emits hp).of_before rfl rfl
  | incomplete as ws _ _ _ => exact .inl ⟨rfl, id⟩
  | enc as _ hp _ ht => exact (encStep_emits ht hp).of_before rfl rfl
  | off as _ hp _ ht => exact (offStep_emits ht hp).of_before rfl rfl

/-! The admitted configurations (R4). -/

theorem config_wf_iff (c : Config) : c.wf = true ↔ 1 ≤ c.ledCount ∧ c.ledCount ≤ 65535 := by
  simp [Config.wf]

/-- The block as built has an LED count R4 admits, whatever its free parameters are. -/
theorem asBuilt_wf : Config.asBuilt.wf = true := by
  have hlt := Config.ledCountLessOne.isLt
  exact (config_wf_iff _).2 ⟨Nat.le_add_left 1 _, hlt⟩

theorem instantiate_of_wf {c : Config} (h : c.wf = true) : State.instantiate c = some (State.resetWith c) := if_pos h

theorem instantiate_eq_none_iff (c : Config) : State.instantiate c = none ↔ ¬ c.wf = true := by
  simp [State.instantiate]

/-- Settles O14: the model is built exactly for an admitted configuration, and that is R4's range of `N`. -/
theorem badLedCountIsRefusedAtInstantiation : Obligations.BadLedCountIsRefusedAtInstantiation := by
  refine fun c => ⟨?_, fun h1 h2 => instantiate_of_wf ((config_wf_iff c).2 ⟨h1, h2⟩), asBuilt_wf⟩
  rw [instantiate_eq_none_iff, config_wf_iff]
  omega

end Sys2Proof.Machine
end

section
/-! PROOFS. The state of the block (10_state.md): what a slot, a fill and a whole step leave in it. -/

namespace Sys2Proof.Machine

/-! Slots that hold a symbol of the table (R27 (d)). -/

/-- Under `LOW8` the odd byte of every slot of the buffer is 0x00 (R33, R35). -/
def OddBytesClear (c : Config) (m : Memory) : Prop :=
  c.storeMode = .low8 → ∀ j, j < slotCount c → m.read (2 * j + 1) = some 0

/-- Of the buffer, the two bytes of the slot alone count. -/
theorem SlotLegal.of_reads {c : Config} {m m' : Memory} {a : Nat} (h : SlotLegal c m a)
    (heven : m'.read a = m.read a) (hodd : m'.read (a + 1) = m.read (a + 1)) : SlotLegal c m' a := by
  obtain ⟨g, he, ho⟩ := h
  exact ⟨g, heven.trans he, hodd.trans ho⟩

/-- The symbol of every slot of a fill is one of the table. -/
theorem filledSymbol_eq_lookup (c : Config) (b : Brightness) (ps : List Pixel) (i k : Nat) :
    ∃ g, filledSymbol c b ps i k = lookup c g := by
  unfold filledSymbol
  split
  · exact ⟨_, rfl⟩
  · exact ⟨0, rfl⟩

/-- A slot whose odd byte is as the store mode leaves it holds its symbol. -/
theorem slotHolds_of_reads {c : Config} {m m' : Memory} {j : Nat} {sym : Symbol} (hclear : OddBytesClear c m)
    (hj : j < slotCount c) (heven : m'.read (2 * j) = some (lowByte sym))
    (hodd : m'.read (2 * j + 1) = if c.storeMode = .full16 then some (highByte sym) else m.read (2 * j + 1)) :
    SlotHolds c m' (2 * j) sym := by
  refine ⟨heven, hodd.trans ?_⟩
  cases hmode : c.storeMode with
  | full16 => simp
  | low8 => simp [hclear hmode j hj]

theorem slotLegal_symStore {c : Config} {m : Memory} {j : Nat} (g : BitVec 2) (hclear : OddBytesClear c m)
    (hj : j < slotCount c) : SlotLegal c (symStore c m (2 * j) (lookup c g)) (2 * j) :=
  ⟨g, slotHolds_of_reads hclear hj (symStore_read_even ..) (symStore_read_odd ..)⟩

theorem slotLegal_symStore_other {c : Config} {m : Memory} {j n : Nat} (sym : Symbol) (hjn : j ≠ n)
    (h : SlotLegal c m (2 * j)) : SlotLegal c (symStore c m (2 * n) sym) (2 * j) :=
  h.of_reads (symStore_read_other _ _ _ (by omega) (by omega)) (symStore_read_other _ _ _ (by omega) (by omega))

/-- After a fill every slot of the buffer is legal. -/
theorem slotLegal_fill {c : Config} {m : Memory} {b : Brightness} {ps : List Pixel} {j : Nat}
    (hclear : OddBytesClear c m) (hn : ps.length ≤ c.ledCount) (hj : j < slotCount c) :
    SlotLegal c (fill c b ps m) (2 * j) := by
  have hsym := slotHolds_of_reads hclear hj (fill_read_even (b := b) m hn hj) (fill_read_odd m hn hj)
  obtain ⟨g, hg⟩ := filledSymbol_eq_lookup c b ps (j / 12) (j % 12)
  exact ⟨g, hg ▸ hsym⟩

/-- Under `LOW8` a symbol store touches even offsets only. -/
theorem OddBytesClear.after_symStore {c : Config} {m : Memory} (n : Nat) (sym : Symbol) (h : OddBytesClear c m) :
    OddBytesClear c (symStore c m (2 * n) sym) := by
  intro hmode j hj
  by_cases hjn : j = n
  · subst hjn; simpa [symStore_read_odd, hmode] using h hmode j hj
  · rw [symStore_read_other _ _ _ (by omega) (by omega)]; exact h hmode j hj

theorem OddBytesClear.after_fill {c : Config} {m : Memory} {b : Brightness} {ps : List Pixel} (hn : ps.length ≤ c.ledCount)
    (h : OddBytesClear c m) : OddBytesClear c (fill c b ps m) := by
  intro hmode j hj
  simpa [fill_read_odd m hn hj, hmode] using h hmode j hj

theorem oddBytesClear_bufClear (c : Config) (m : Memory) : OddBytesClear c (bufClear c m) := by
  intro _ j hj
  rw [bufClear_read, if_pos]
  rw [slotCount] at hj
  rw [bufLen]
  omega

/-- A symbol store inside a buffer of all its bytes adds no offset. -/
theorem symStore_offsets_of_range {c : Config} {m : Memory} {a n : Nat} (sym : Symbol)
    (h : m.map Prod.fst = List.range n) (ha : a + 2 ≤ n) : (symStore c m a sym).map Prod.fst = List.range n :=
  storeSlots_offsets (ss := [sym]) h ha

/-! Where a fill may start, and what holds in the middle of one (R107 to R109). -/

/-- What a fill needs of the state it starts from: the buffer there and its odd bytes in order, a usable brightness, no
word held. The phase does not count: `INIT` starts its fill in `UNINIT`, after its clear. -/
structure FillReady (s : State) : Prop where
  config : s.cfg.wf = true
  bufExtent : s.buf.map Prod.fst = List.range (bufLen s.cfg)
  oddBytesClear : OddBytesClear s.cfg s.buf
  brightness : s.brt.toNat ≤ 100
  noWords : s.rx = []
  frameLength : ∀ f, Output.txStart f ∈ s.outputs → f.length = bufLen s.cfg

/-- What `ENC` and `OFF` have in common: every slot below `WP` is written. -/
structure MidFill (s : State) : Prop extends FillReady s where
  slotsWritten : ∀ j, 2 * j < s.wp → SlotLegal s.cfg s.buf (2 * j)
  wpRange : s.wp % 2 = 0 ∧ s.wp ≤ bufLen s.cfg
  latchRange : s.k ≤ 11 ∧ s.i ≤ s.npix ∧ s.npix = s.pq.length ∧ s.npix ≤ s.cfg.ledCount
  brightnessLatched : s.bl = s.brt

theorem BlockInv.fillReady {s : State} (h : BlockInv s) (hp : s.phase ≠ .uninit) (hb : s.brt.toNat ≤ 100)
    (hrx : s.rx = []) : FillReady s :=
  ⟨h.config, h.bufExtent hp, h.oddBytesClear hp, hb, hrx, h.frameLength⟩

theorem BlockInv.midFill {s : State} (h : BlockInv s) (hp : s.phase = .enc ∨ s.phase = .off) : MidFill s := by
  have hbusy : s.busy = true := s.busy_iff.2 (hp.imp_right .inl)
  have hinit : s.phase ≠ .uninit := by rcases hp with hp | hp <;> simp [hp]
  obtain ⟨hbl, hbrt⟩ := h.fillBrightness hbusy
  exact ⟨h.fillReady hinit hbrt (h.noWordsWhileBusy hbusy), h.slotsWritten hp, h.wpRange, h.latchRange, hbl⟩

/-- The clear of `INIT` makes the buffer ready, from `UNINIT` and again from `IDLE` (R90). -/
theorem BlockInv.fillReady_clear {s : State} {b : Byte} (h : BlockInv s) (hb : b.toNat ≤ 100) (hrx : s.rx = []) :
    FillReady { s with brt := b, buf := bufClear s.cfg s.buf } where
  config := h.config
  bufExtent := bufClear_offsets (by
    by_cases hp : s.phase = .uninit
    · exact .inl (h.bufUnwritten hp)
    · exact .inr (h.bufExtent hp))
  oddBytesClear := oddBytesClear_bufClear _ _
  brightness := hb
  noWords := hrx
  frameLength := h.frameLength

theorem FillReady.midFill_start {s : State} {ps : List Pixel} (h : FillReady s) (hn : ps.length ≤ s.cfg.ledCount) :
    MidFill (startFill ps s) :=
  { h with
    slotsWritten := by simp
    wpRange := by simp
    latchRange := by simpa using hn
    brightnessLatched := rfl }

theorem FillReady.withBuf {s : State} {m : Memory} (h : FillReady s) (hm : m.map Prod.fst = List.range (bufLen s.cfg))
    (hodd : OddBytesClear s.cfg m) : FillReady { s with buf := m } :=
  { h with bufExtent := hm, oddBytesClear := hodd }

/-- Storing a symbol of the table in the slot at `WP` (R107 stage S3, R108). -/
theorem MidFill.after_storeAtWp {s : State} (g : BitVec 2) (h : MidFill s) (hwp : s.wp + 2 ≤ bufLen s.cfg) :
    MidFill (storeAtWp (lookup s.cfg g) s) := by
  obtain ⟨hready, hslots, ⟨heven, hle⟩, hlatch, hbl⟩ := h
  obtain ⟨n, hn⟩ : ∃ n, s.wp = 2 * n := ⟨s.wp / 2, by omega⟩
  have hcount : n < slotCount s.cfg := by rw [bufLen] at hwp; rw [slotCount]; omega
  have hbuf : FillReady { s with buf := symStore s.cfg s.buf s.wp (lookup s.cfg g) } :=
    hready.withBuf (symStore_offsets_of_range _ hready.bufExtent hwp) (hn ▸ hready.oddBytesClear.after_symStore n _)
  have hslots' : ∀ j, 2 * j < s.wp + 2 →
      SlotLegal s.cfg (symStore s.cfg s.buf s.wp (lookup s.cfg g)) (2 * j) := fun j hj => by
    rw [hn] at hj ⊢
    by_cases hjn : j = n
    · subst hjn; exact slotLegal_symStore g hready.oddBytesClear hcount
    · exact slotLegal_symStore_other _ hjn (hslots j (by omega))
  exact { hbuf with
    slotsWritten := hslots'
    wpRange := ⟨by simp; omega, hwp⟩
    latchRange := hlatch
    brightnessLatched := hbl }

/-- Moving on to another slot, pixel or phase. -/
theorem MidFill.advance {s : State} (i k : Nat) (p : Phase) (h : MidFill s) (hk : k ≤ 11) (hi : i ≤ s.npix) :
    MidFill { s with k := k, i := i, phase := p } :=
  { h with latchRange := ⟨hk, hi, h.latchRange.2.2⟩ }

theorem MidFill.withScaled {s : State} (sc : BitVec 24) (h : MidFill s) : MidFill { s with sc := sc } :=
  { h with }

/-! From the middle of a fill to the invariant, by the phase the fill is in. -/

/-- The `ENC` position and latch (R107): the next slot is slot `K` of pixel `I`, and `SC` is that pixel's once `K > 0`. -/
structure EncAt (s : State) : Prop where
  position : s.i < s.npix ∧ s.wp = slotAddr s.i s.k
  latch : 0 < s.k → ∃ p b, s.pq[s.i]? = some p ∧ usableBrightness s.bl = some b ∧ s.sc = scaleGRB p b

/-- The invariant while the controller steps, at the slot level. -/
theorem MidFill.inv_of_filling {s : State} (h : MidFill s) (hp : s.phase = .enc ∨ s.phase = .off)
    (hlevel : s.cfg.level = .slot) (henc : s.phase = .enc → EncAt s)
    (hoff : s.phase = .off → 24 * s.npix ≤ s.wp ∧ s.wp + 2 ≤ bufLen s.cfg) : BlockInv s := by
  obtain ⟨huninit, hidle, htx⟩ : s.phase ≠ .uninit ∧ s.phase ≠ .idle ∧ s.phase ≠ .tx := by
    rcases hp with hp | hp <;> simp [hp]
  exact {
    config := h.config
    bufUnwritten := fun hu => absurd hu huninit
    bufExtent := fun _ => h.bufExtent
    slotsComplete := fun hc => hc.elim (absurd · hidle) (absurd · htx)
    slotsWritten := fun _ => h.slotsWritten
    oddBytesClear := fun _ => h.oddBytesClear
    wpRange := h.wpRange
    latchRange := h.latchRange
    fillBrightness := fun _ => ⟨h.brightnessLatched, h.brightness⟩
    encPosition := fun he => (henc he).position
    encLatch := fun he => (henc he).latch
    offPosition := hoff
    txPosition := fun ht => absurd ht htx
    atomicCommands := by simp [hlevel]
    wordsHeld := by simp [h.noWords]
    noWordsWhileBusy := fun _ => h.noWords
    frameInFlight := fun ht => absurd ht htx
    answeredWhenIdle := fun hi => absurd hi hidle
    frameLength := h.frameLength }

/-- The hand-over of a finished fill (R143). -/
theorem MidFill.inv_handOver {s : State} (h : MidFill s) (hwp : s.wp = bufLen s.cfg) : BlockInv (handOver s) where
  config := h.config
  bufUnwritten := nofun
  bufExtent _ := h.bufExtent
  slotsComplete _ j hj := h.slotsWritten j (by
    rw [handOver_cfg, slotCount] at hj
    rw [hwp, bufLen]
    omega)
  slotsWritten := by simp
  oddBytesClear _ := h.oddBytesClear
  wpRange := h.wpRange
  latchRange := h.latchRange
  fillBrightness _ := ⟨h.brightnessLatched, h.brightness⟩
  encPosition := nofun
  encLatch := nofun
  offPosition := nofun
  txPosition _ := hwp
  atomicCommands := by simp
  wordsHeld := by simp [h.noWords]
  noWordsWhileBusy _ := h.noWords
  frameInFlight _ := by simp
  answeredWhenIdle := nofun
  frameLength f hf := by
    rw [handOver_outputs, List.mem_append, List.mem_singleton] at hf
    rcases hf with hf | hf
    · exact h.frameLength f hf
    · cases hf; simp

/-! What each operation does to the invariant. -/

/-- The start of a fill at the slot level (R109). -/
theorem FillReady.inv_startFill {s : State} {ps : List Pixel} (h : FillReady s) (hn : ps.length ≤ s.cfg.ledCount)
    (hlevel : s.cfg.level = .slot) : BlockInv (startFill ps s) := by
  have hN : 1 ≤ s.cfg.ledCount := ((config_wf_iff _).1 h.config).1
  refine (h.midFill_start hn).inv_of_filling ?_ hlevel ?_ ?_
  · by_cases hps : ps = [] <;> simp [hps]
  · intro hp
    have hps : ps ≠ [] := by rintro rfl; cases hp
    exact ⟨by simp [slotAddr, List.length_pos_iff.2 hps], by simp⟩
  · intro hp
    have hps : ps = [] := by by_contra hne; simp [hne] at hp
    simp [hps, bufLen]
    omega

/-- A whole fill as one change of state (R100, R102): all slots written, then the hand-over. -/
theorem FillReady.inv_runFill {s : State} {b : Brightness} {ps : List Pixel} (h : FillReady s)
    (hn : ps.length ≤ s.cfg.ledCount) : BlockInv (runFill b ps (startFill ps s)) := by
  have hbuf : FillReady { s with buf := fill s.cfg b ps s.buf } :=
    h.withBuf (fill_offsets h.bufExtent hn) (h.oddBytesClear.after_fill hn)
  have hslots : ∀ j, 2 * j < bufLen s.cfg → SlotLegal s.cfg (fill s.cfg b ps s.buf) (2 * j) := fun j hj =>
    slotLegal_fill h.oddBytesClear hn (by rw [bufLen] at hj; rw [slotCount]; omega)
  refine MidFill.inv_handOver { hbuf with
    slotsWritten := hslots
    wpRange := ⟨?_, le_rfl⟩
    latchRange := ⟨Nat.zero_le _, le_rfl, rfl, hn⟩
    brightnessLatched := rfl } rfl
  simp only [bufLen]
  omega

theorem FillReady.inv_showBody {s : State} {b : Brightness} {ps : List Pixel} (h : FillReady s)
    (hn : ps.length ≤ s.cfg.ledCount) : BlockInv (showBody b ps s) := by
  cases hlevel : s.cfg.level with
  | command => rw [showBody_of_command hlevel]; exact h.inv_runFill hn
  | slot => rw [showBody_of_slot hlevel]; exact h.inv_startFill hn hlevel

/-- The ports, and the words held where they are still no command, are free outside a fill. -/
theorem BlockInv.withWords {s : State} (h : BlockInv s) (as : List Arrival) (rx ws : List Word)
    (hrx : decode rx = .incomplete) (hfree : s.busy = true → rx = []) :
    BlockInv { s with arrivals := as, rx := rx, cmdPort := ws } :=
  { h with wordsHeld := hrx, noWordsWhileBusy := hfree }

theorem BlockInv.after_presented {s : State} (h : BlockInv s) (as : List Arrival) (ws : List Word) :
    BlockInv (presented s as ws) :=
  h.withWords as s.rx ws h.wordsHeld h.noWordsWhileBusy

theorem BlockInv.after_consumeTo {s : State} (h : BlockInv s) (rest : List Word) : BlockInv (consumeTo rest s) :=
  h.withWords s.arrivals [] rest rfl fun _ => rfl

/-- A block that takes words is not busy (R20, R165). -/
theorem not_busy_of_accepting {s : State} (hp : s.phase = .uninit ∨ s.phase = .idle) : ¬ s.busy = true := by
  rcases hp with hp | hp <;> simp [State.busy_iff, hp]

/-- A response from a block that takes words, with any `BRT` and `ERR` (R120, R136). -/
theorem BlockInv.after_respond {s : State} (h : BlockInv s) (hp : s.phase = .uninit ∨ s.phase = .idle) (v : Byte)
    (e : BitVec 4) (r : Response) : BlockInv ({ s with brt := v, err := e }.emit (.resp r)) :=
  have hfree := not_busy_of_accepting hp
  { h with
    fillBrightness := fun hb => absurd hb hfree
    frameInFlight := fun htx => absurd (s.busy_iff.2 (.inr (.inr htx))) hfree
    answeredWhenIdle := fun _ => ⟨r, by simp⟩
    frameLength := fun f hf => h.frameLength f (by simpa using hf) }

theorem BlockInv.after_raiseFault {s : State} (h : BlockInv s) (hp : s.phase = .uninit ∨ s.phase = .idle) (c : FaultCause) :
    BlockInv (raiseFault c s) :=
  h.after_respond hp s.brt (setErr s.err c) (.failed c)

/-- A command the block executes, its words consumed (R90, R100, R120). -/
theorem BlockInv.after_exec {i : Instr} {s t : State} (h : BlockInv s) (hp : s.phase = .uninit ∨ s.phase = .idle)
    (hrx : s.rx = []) (ht : exec i s = .next t) : BlockInv t := by
  rcases exec_cases ht with ⟨c, _, rfl⟩ | ⟨v, _, _, rfl⟩ | ⟨b, u, _, hu, rfl⟩ | ⟨ps, b, _, hinit, hn, hb, rfl⟩
  · exact h.after_raiseFault hp c
  · exact h.after_respond hp v s.err .success
  · have hle : b.toNat ≤ 100 := by rw [usableBrightness_eq_some.1 hu]; omega
    exact (h.fillReady_clear hle hrx).inv_showBody (Nat.zero_le _)
  · have hle : s.brt.toNat ≤ 100 := by rw [usableBrightness_eq_some.1 hb]; omega
    exact (h.fillReady hinit hle hrx).inv_showBody hn

/-- `TxDone` (R110, R145): the block answers and is idle, its buffer as it was handed over. -/
theorem BlockInv.after_takeTxDone {s : State} (h : BlockInv s) : BlockInv (takeTxDone s) := by
  by_cases hp : s.phase = .tx
  · rw [takeTxDone_of_tx hp]
    exact { h with
      bufUnwritten := nofun
      bufExtent := fun _ => h.bufExtent (by simp [hp])
      slotsComplete := fun _ => h.slotsComplete (.inr hp)
      slotsWritten := nofun
      oddBytesClear := fun _ => h.oddBytesClear (by simp [hp])
      fillBrightness := nofun
      encPosition := nofun
      encLatch := nofun
      offPosition := nofun
      txPosition := nofun
      atomicCommands := fun _ => ⟨nofun, nofun⟩
      noWordsWhileBusy := nofun
      frameInFlight := nofun
      answeredWhenIdle := fun _ => ⟨.success, by simp⟩
      frameLength := fun f hf => h.frameLength f (by simpa using hf) }
  · rwa [takeTxDone_of_ne_tx hp]

/-! The controller's steps (R107, R108). -/

/-- The configured level while the controller steps (R112). -/
theorem BlockInv.level_of_filling {s : State} (h : BlockInv s) (hp : s.phase = .enc ∨ s.phase = .off) :
    s.cfg.level = .slot := by
  cases hlevel : s.cfg.level with
  | slot => rfl
  | command =>
    obtain ⟨henc, hoff⟩ := h.atomicCommands hlevel
    exact absurd hp (by simp [henc, hoff])

/-- Stage S1 (R107): `SC` is the scaled word of pixel `I`, computed now when `K = 0`, else latched before. -/
theorem BlockInv.encScaled_eq {s : State} (h : BlockInv s) (hp : s.phase = .enc) :
    ∃ p b, s.pq[s.i]? = some p ∧ usableBrightness s.bl = some b ∧ encScaled s = some (scaleGRB p b) := by
  by_cases hk : s.k = 0
  · obtain ⟨hi, _⟩ := h.encPosition hp
    obtain ⟨hbl, hbrt⟩ := h.fillBrightness (s.busy_iff.2 (.inl hp))
    obtain ⟨b, hb⟩ := usableBrightness_of_le (hbl ▸ hbrt)
    have hpix : s.pq[s.i]? = some (s.pq[s.i]'(h.latchRange.2.2.1 ▸ hi)) := List.getElem?_eq_getElem _
    exact ⟨_, b, hpix, hb, by simp [encScaled, hk, hpix, hb]⟩
  · obtain ⟨p, b, hpix, hb, hsc⟩ := h.encLatch hp (Nat.pos_of_ne_zero hk)
    exact ⟨p, b, hpix, hb, by simp [encScaled, hk, hsc]⟩

/-- The advance after the store of slot `K` of pixel `I`, in each of its four cases (R107). -/
theorem MidFill.inv_encAdvance {s : State} {p : Pixel} {b : Brightness} (h : MidFill s) (hp : s.phase = .enc)
    (hlevel : s.cfg.level = .slot) (hi : s.i < s.npix) (hwp : s.wp = slotAddr s.i s.k + 2)
    (hpix : s.pq[s.i]? = some p) (hb : usableBrightness s.bl = some b) (hsc : s.sc = scaleGRB p b) :
    BlockInv (encAdvance s) := by
  obtain ⟨hk, _, _, hnpix⟩ := h.latchRange
  rw [slotAddr] at hwp
  rcases encAdvance_cases s with ⟨hk', e⟩ | ⟨hk', hlast, hlt, e⟩ | ⟨hk', hlast, hge, e⟩ | ⟨hk', hnext, e⟩ <;> rw [e]
  · refine (h.advance s.i (s.k + 1) s.phase (by omega) (by omega)).inv_of_filling (.inl hp) hlevel
      (fun _ => ⟨⟨hi, ?_⟩, fun _ => ⟨p, b, hpix, hb, hsc⟩⟩) (by simp [hp])
    simp only [slotAddr]
    omega
  · refine (h.advance (s.i + 1) 0 .off (by omega) (by omega)).inv_of_filling (.inr rfl) hlevel nofun fun _ => ?_
    simp only [bufLen]
    omega
  · refine (h.advance (s.i + 1) 0 s.phase (by omega) (by omega)).inv_handOver ?_
    simp only [bufLen]
    omega
  · refine (h.advance (s.i + 1) 0 s.phase (by omega) (by omega)).inv_of_filling (.inl hp) hlevel
      (fun _ => ⟨⟨?_, ?_⟩, nofun⟩) (by simp [hp])
    · simp only
      omega
    · simp only [slotAddr]
      omega

theorem BlockInv.after_encStep {s t : State} (h : BlockInv s) (hp : s.phase = .enc) (ht : encStep s = .next t) :
    BlockInv t := by
  obtain ⟨_, sc, hsc, rfl⟩ := encStep_cases ht
  obtain ⟨p, b, hpix, hb, hsc'⟩ := h.encScaled_eq hp
  obtain rfl : sc = scaleGRB p b := Option.some.inj (hsc.symm.trans hsc')
  obtain ⟨hi, hwp⟩ := h.encPosition hp
  obtain ⟨hk, _, _, hnpix⟩ := h.latchRange
  have hroom : s.wp + 2 ≤ bufLen s.cfg := by rw [hwp, slotAddr, bufLen]; omega
  have hmid := ((h.midFill (.inl hp)).withScaled (scaleGRB p b)).after_storeAtWp (slotOfScaled (scaleGRB p b) s.k) hroom
  exact hmid.inv_encAdvance hp (h.level_of_filling (.inl hp)) hi (congrArg (· + 2) hwp) hpix hb rfl

theorem BlockInv.after_offStep {s t : State} (h : BlockInv s) (hp : s.phase = .off) (ht : offStep s = .next t) :
    BlockInv t := by
  obtain ⟨_, rfl⟩ := offStep_cases ht
  obtain ⟨hnpix, hroom⟩ := h.offPosition hp
  have heven := h.wpRange.1
  have hmid : MidFill (storeAtWp (offSymbol s.cfg) s) := (h.midFill (.inr hp)).after_storeAtWp 0 hroom
  rcases offAdvance_cases (storeAtWp (offSymbol s.cfg) s) with ⟨hwp, e⟩ | ⟨hwp, e⟩ <;> rw [e]
  · exact hmid.inv_handOver hwp
  · refine hmid.inv_of_filling (.inr hp) (h.level_of_filling (.inr hp)) (by simp [hp]) fun _ => ?_
    simp only [storeAtWp_wp, storeAtWp_npix, storeAtWp_cfg, bufLen] at hwp hroom ⊢
    omega

/-! Reset (R26, R160). -/

/-- The reset state with the fields a `Reset` leaves alone at given values: power-up and a `Reset` event are two cases. -/
def State.resetKeeping (c : Config) (as : List Arrival) (ws : List Word) (os : List Output) (n : Nat) : State :=
  { State.resetWith c with arrivals := as, cmdPort := ws, outputs := os, resets := n }

theorem reset_eq_resetKeeping : State.reset = State.resetKeeping Config.asBuilt [] [] [] 0 := rfl

theorem started_eq_resetKeeping (c : Config) (script : List Arrival) :
    State.started c script = State.resetKeeping c script [] [] 0 := rfl

theorem takeReset_eq_resetKeeping (s : State) :
    takeReset s = State.resetKeeping s.cfg s.arrivals s.cmdPort s.outputs (s.resets + 1) := rfl

theorem blockInv_resetKeeping {c : Config} {os : List Output} (as : List Arrival) (ws : List Word) (n : Nat)
    (hc : c.wf = true) (hos : ∀ f, Output.txStart f ∈ os → f.length = bufLen c) :
    BlockInv (State.resetKeeping c as ws os n) where
  config := hc
  bufUnwritten _ := rfl
  bufExtent hp := absurd rfl hp
  slotsComplete := by simp [State.resetKeeping]
  slotsWritten := by simp [State.resetKeeping]
  oddBytesClear hp := absurd rfl hp
  wpRange := ⟨rfl, Nat.zero_le _⟩
  latchRange := ⟨Nat.zero_le _, le_rfl, rfl, Nat.zero_le _⟩
  fillBrightness := nofun
  encPosition := nofun
  encLatch := nofun
  offPosition := nofun
  txPosition := nofun
  atomicCommands _ := ⟨nofun, nofun⟩
  wordsHeld := rfl
  noWordsWhileBusy := nofun
  frameInFlight := nofun
  answeredWhenIdle := nofun
  frameLength := hos

theorem BlockInv.after_takeReset {s : State} (h : BlockInv s) : BlockInv (takeReset s) := by
  rw [takeReset_eq_resetKeeping]
  exact blockInv_resetKeeping _ _ _ h.config h.frameLength

theorem blockInv_started {c : Config} (script : List Arrival) (hc : c.wf = true) : BlockInv (State.started c script) := by
  rw [started_eq_resetKeeping]
  exact blockInv_resetKeeping script [] 0 hc (by simp)

/-- Settles O53, for the block as built and for every admitted configuration (R26, R27). -/
theorem invariantHoldsAfterReset : Obligations.InvariantHoldsAfterReset := by
  refine ⟨?_, fun _ script hc => blockInv_started script hc⟩
  rw [reset_eq_resetKeeping]
  exact blockInv_resetKeeping [] [] 0 asBuilt_wf (by simp)

/-! The invariant along every step and every run. -/

/-- Settles O54, case by case over what a step can be. -/
theorem everyStepKeepsTheInvariant : Obligations.EveryStepKeepsTheInvariant := by
  intro s t h ht
  have htaken : ∀ as, BlockInv { s with arrivals := as } := fun as => h.after_presented as s.cmdPort
  cases step_cases ht with
  | reset as _ => exact (htaken as).after_takeReset
  | txDone as _ => exact (htaken as).after_takeTxDone
  | held as ws _ _ => exact h.after_presented as ws
  | command as ws _ hp i rest _ _ ht => exact ((h.after_presented as ws).after_consumeTo rest).after_exec hp rfl ht
  | illegal as ws _ hp why rest _ => exact ((h.after_presented as ws).after_consumeTo rest).after_raiseFault hp .illegalCommand
  | incomplete as ws _ hp hd =>
    exact h.withWords as (s.rx ++ ws) [] hd fun hbusy => absurd hbusy (not_busy_of_accepting hp)
  | enc as _ hp _ ht => exact (htaken as).after_encStep hp ht
  | off as _ hp _ ht => exact (htaken as).after_offStep hp ht

theorem commandStep_answers (s : State) : ∃ t, commandStep s = .next t := by
  unfold commandStep
  split
  · exact exec_answers _ _
  · exact ⟨_, rfl⟩
  · exact ⟨_, rfl⟩

/-- R107's precondition and R81's domain hold under the invariant, so an `ENC` step answers. -/
theorem BlockInv.encStep_answers {s : State} (h : BlockInv s) (hp : s.phase = .enc) : ∃ t, encStep s = .next t := by
  obtain ⟨hi, hwp⟩ := h.encPosition hp
  obtain ⟨hk, _, hlen, hnpix⟩ := h.latchRange
  obtain ⟨p, b, _, _, hsc⟩ := h.encScaled_eq hp
  have hready : encReady s = true := (encReady_iff s).2 ⟨hi, hk, hwp, hlen, hnpix⟩
  simp [encStep, hready, hsc]

theorem BlockInv.offStep_answers {s : State} (h : BlockInv s) (hp : s.phase = .off) : ∃ t, offStep s = .next t := by
  obtain ⟨hnpix, hroom⟩ := h.offPosition hp
  exact ⟨_, if_pos ((offReady_iff s).2 ⟨h.wpRange.1, hnpix, hroom⟩)⟩

theorem BlockInv.encoderStep_answers {s : State} (h : BlockInv s) : ∃ t, encoderStep s = .next t := by
  unfold encoderStep
  split
  · exact commandStep_answers s
  · exact commandStep_answers s
  · next hp => exact h.encStep_answers hp
  · next hp => exact h.offStep_answers hp
  · exact ⟨_, rfl⟩

theorem takeWord_answers (w : Word) (s : State) : ∃ t, takeWord w s = .next t := by
  unfold takeWord
  split
  · exact commandStep_answers _
  · exact commandStep_answers _
  all_goals exact ⟨_, rfl⟩

/-- No step stops in a state that meets the invariant (R36, R81). -/
theorem BlockInv.step_answers {s : State} (h : BlockInv s) : ∃ t, step s = .next t := by
  rcases ha : s.arrivals with _ | ⟨a, as⟩
  · rw [step_eq_encoderStep ha]; exact h.encoderStep_answers
  · rw [step_eq_arrive ha]
    cases a with
    | reset => exact ⟨_, rfl⟩
    | word w => exact takeWord_answers w _
    | txDone => exact ⟨_, rfl⟩
    | quiet => exact (h.after_presented as s.cmdPort).encoderStep_answers

/-- A run from a state that meets the invariant goes on and meets it at its end. -/
theorem BlockInv.run {s : State} (h : BlockInv s) (k : Nat) : ∃ t, core.run k s = .next t ∧ BlockInv t := by
  induction k generalizing s with
  | zero => exact ⟨s, run_zero s, h⟩
  | succ k ih =>
    obtain ⟨u, hu⟩ := h.step_answers
    rw [run_of_next hu]
    exact ih (everyStepKeepsTheInvariant s u h hu)

/-- Settles O56: the invariant holds after reset, every step keeps it, and under it no step stops. -/
theorem everyRunGoesOnAndMeetsTheInvariant : Obligations.EveryRunGoesOnAndMeetsTheInvariant :=
  fun _ script k hc => (blockInv_started script hc).run k

end Sys2Proof.Machine
end

section
/-! PROOFS. The registers and the status levels of the block (10_state.md R11, R12, R16, R20, R21, R26): what each command and
each step does to `BRT`, `ERR` and the configuration. -/

namespace Sys2Proof.Machine

/-! One command. -/

theorem exec_cfg {i : Instr} {s t : State} (h : exec i s = .next t) : t.cfg = s.cfg := by
  rcases exec_cases h with ⟨c, _, rfl⟩ | ⟨v, _, _, rfl⟩ | ⟨b, u, _, _, rfl⟩ | ⟨ps, b, _, _, _, _, rfl⟩ <;> simp

/-- A command leaves `ERR` alone, or a fault sets its bit (R136). -/
theorem exec_err {i : Instr} {s t : State} (h : exec i s = .next t) : t.err = s.err ∨ ∃ c, t.err = setErr s.err c := by
  rcases exec_cases h with ⟨c, _, rfl⟩ | ⟨v, _, _, rfl⟩ | ⟨b, u, _, _, rfl⟩ | ⟨ps, b, _, _, _, _, rfl⟩
  · exact .inr ⟨c, rfl⟩
  all_goals exact .inl (by simp)

/-- A command that changes `BRT` is an `INIT` or a `SETBRT` of the new value (R12). -/
theorem exec_brt {i : Instr} {s t : State} (h : exec i s = .next t) :
    t.brt = s.brt ∨ i = .init t.brt ∨ i = .setbrt t.brt := by
  rcases exec_cases h with ⟨c, _, rfl⟩ | ⟨v, rfl, _, rfl⟩ | ⟨b, u, rfl, _, rfl⟩ | ⟨ps, b, _, _, _, _, rfl⟩
  · exact .inl rfl
  · exact .inr (.inr rfl)
  · exact .inr (.inl (by simp))
  · exact .inl (by simp)

/-! One step of the controller. -/

theorem encStep_keeps_registers {s t : State} (h : encStep s = .next t) : t.cfg = s.cfg ∧ t.brt = s.brt ∧ t.err = s.err := by
  obtain ⟨_, sc, _, rfl⟩ := encStep_cases h
  simp

theorem offStep_keeps_registers {s t : State} (h : offStep s = .next t) : t.cfg = s.cfg ∧ t.brt = s.brt ∧ t.err = s.err := by
  obtain ⟨_, rfl⟩ := offStep_cases h
  simp

/-! One step of the block. -/

/-- Settles O15, case by case over what a step can be (R10, R11, R14). -/
theorem noStepWritesTheConfiguration : Obligations.NoStepWritesTheConfiguration := by
  intro s t h
  cases step_cases h with
  | reset as _ => rfl
  | txDone as _ => exact takeTxDone_cfg _
  | held as ws _ _ => rfl
  | command as ws _ _ i rest _ _ ht => exact (exec_cfg ht :)
  | illegal as ws _ _ why rest _ => rfl
  | incomplete as ws _ _ _ => rfl
  | enc as _ _ _ ht => exact (encStep_keeps_registers ht).1
  | off as _ _ _ ht => exact (offStep_keeps_registers ht).1

/-- No step but a `Reset` does more to `ERR` than set the bit of a fault (R16). -/
theorem step_err {s t : State} (h : step s = .next t) (hreset : s.arrivals.head? ≠ some .reset) :
    t.err = s.err ∨ ∃ c, t.err = setErr s.err c := by
  cases step_cases h with
  | reset as ha => simp [ha] at hreset
  | txDone as _ => exact .inl (takeTxDone_err _)
  | held as ws _ _ => exact .inl rfl
  | command as ws _ _ i rest _ _ ht => exact (exec_err ht :)
  | illegal as ws _ _ why rest _ => exact .inr ⟨.illegalCommand, rfl⟩
  | incomplete as ws _ _ _ => exact .inl rfl
  | enc as _ _ _ ht => exact .inl (encStep_keeps_registers ht).2.2
  | off as _ _ _ ht => exact .inl (offStep_keeps_registers ht).2.2

/-- A step without a `Reset` clears no bit of `ERR`. -/
theorem step_err_mono {s t : State} (h : step s = .next t) (hreset : s.arrivals.head? ≠ some .reset) {j : Nat}
    (hj : s.err.getLsbD j = true) : t.err.getLsbD j = true := by
  rcases step_err h hreset with e | ⟨c, e⟩ <;> rw [e]
  · exact hj
  · exact setErr_mono _ c hj

/-- A fault of cause `c` leaves bit `code - 1` of `ERR` set. -/
theorem setErr_getLsbD_code (e : BitVec 4) (c : FaultCause) : (setErr e c).getLsbD (c.code - 1) = true := by
  cases c <;> simp [setErr, errBit, FaultCause.code]

theorem step_of_reset {s : State} {as : List Arrival} (h : s.arrivals = .reset :: as) :
    step s = .next (takeReset { s with arrivals := as }) := step_eq_arrive h

/-- Settles O23. -/
theorem errBitsAreStickyUntilReset : Obligations.ErrBitsAreStickyUntilReset :=
  ⟨fun _ _ h hreset _ hj => step_err_mono h hreset hj, fun c s => setErr_getLsbD_code s.err c,
    fun _ _ h => ⟨_, step_of_reset h, rfl⟩⟩

/-- Settles O48: of the steps without a `Reset` only a command changes `BRT`, and its words are those seen. -/
theorem brightnessChangesOnlyByInitOrSetbrt : Obligations.BrightnessChangesOnlyByInitOrSetbrt := by
  intro s t h hbrt hreset
  cases step_cases h with
  | reset as ha => simp [ha] at hreset
  | txDone as _ => exact absurd (takeTxDone_brt _) hbrt
  | held as ws _ _ => exact absurd rfl hbrt
  | command as ws hq _ i rest hd _ ht =>
    rw [hq.wordsSeen_eq, hd]
    rcases exec_brt ht with e | rfl | rfl
    · exact absurd e hbrt
    · exact ⟨rest, .inl rfl⟩
    · exact ⟨rest, .inr rfl⟩
  | illegal as ws _ _ why rest _ => exact absurd rfl hbrt
  | incomplete as ws _ _ _ => exact absurd rfl hbrt
  | enc as _ _ _ ht => exact absurd (encStep_keeps_registers ht).2.1 hbrt
  | off as _ _ _ ht => exact absurd (offStep_keeps_registers ht).2.1 hbrt

/-! After reset (R26). -/

theorem State.status_eq_zero {s : State} (hp : s.phase = .uninit) (he : s.err = 0) : s.status = 0 := by
  simp [State.status, State.faultLevel, State.txActive, State.busy, hp, he, Phase.busy, Phase.code]

theorem atReset_resetKeeping (c : Config) (as : List Arrival) (ws : List Word) (os : List Output) (n : Nat) :
    AtReset c (State.resetKeeping c as ws os n) where
  phase := rfl
  brt := rfl
  err := rfl
  buf _ := rfl
  cfg := rfl
  status := State.status_eq_zero rfl rfl
  noTransmit bs h := by
    have hp : ({ State.resetKeeping c as ws os n with arrivals := bs } : State).phase ≠ .tx := by simp [State.resetKeeping]
    rw [step_eq_arrive h, arrive, takeTxDone_of_ne_tx hp]

/-- Settles O12: power-up and a `Reset` event are the two cases of `State.resetKeeping`. -/
theorem resetLeavesTheStatedValues : Obligations.ResetLeavesTheStatedValues :=
  ⟨reset_eq_resetKeeping ▸ atReset_resetKeeping .., fun c script => started_eq_resetKeeping c script ▸ atReset_resetKeeping ..,
    fun _ _ h => ⟨_, step_of_reset h, takeReset_eq_resetKeeping _ ▸ atReset_resetKeeping ..⟩⟩

/-! `STATUS` (R20, R21): the packing of its four fields. -/

/-- The phase code in bits 2:0, then three levels, the lowest at bit 3. -/
def packStatus (fault txActive busy : Bool) (phase : BitVec 3) : BitVec 6 :=
  BitVec.ofBool fault ++ BitVec.ofBool txActive ++ BitVec.ofBool busy ++ phase

theorem State.status_eq_packStatus (s : State) : s.status = packStatus s.faultLevel s.txActive s.busy s.phase.code := rfl

theorem packStatus_phase (f x b : Bool) (p : BitVec 3) : (packStatus f x b p).extractLsb' 0 3 = p := by
  revert f x b p; decide

theorem packStatus_levels (f x b : Bool) (p : BitVec 3) : (packStatus f x b p).getLsbD 3 = b ∧
    (packStatus f x b p).getLsbD 4 = x ∧ (packStatus f x b p).getLsbD 5 = f := by
  revert f x b p; decide

theorem packStatus_toNat (f x b : Bool) (p : BitVec 3) : (packStatus f x b p).toNat =
    p.toNat + (if b then 8 else 0) + (if x then 16 else 0) + (if f then 32 else 0) := by
  revert f x b p; decide

theorem Phase.code_toNat_le (p : Phase) : p.code.toNat ≤ 4 := by cases p <;> decide

theorem State.txActive_iff (s : State) : s.txActive = true ↔ s.phase = .tx := by simp [State.txActive]

theorem State.faultLevel_iff (s : State) : s.faultLevel = true ↔ s.err ≠ 0 := by simp [State.faultLevel]

/-! No command reads `ERR` (R20). -/

theorem showBody_withErr (b : Brightness) (ps : List Pixel) (s : State) (e : BitVec 4) :
    showBody b ps { s with err := e } = { showBody b ps s with err := e } := by
  cases hlevel : s.cfg.level with
  | command => rw [showBody_of_command hlevel, showBody_of_command (s := { s with err := e }) hlevel]; rfl
  | slot => rw [showBody_of_slot hlevel, showBody_of_slot (s := { s with err := e }) hlevel]; rfl

/-! The faults of `SHOW`, in R138's order. -/

theorem execShow_of_uninit {ps : List Pixel} {s : State} (hp : s.phase = .uninit) :
    execShow ps s = .next (raiseFault .notInitialized s) := if_pos hp

theorem execShow_of_tooMany {ps : List Pixel} {s : State} (hp : s.phase ≠ .uninit) (hn : s.cfg.ledCount < ps.length) :
    execShow ps s = .next (raiseFault .invalidArgument s) := by
  simp [execShow, hp, hn]

theorem execShow_of_tooBright {ps : List Pixel} {s : State} (hp : s.phase ≠ .uninit) (hn : ps.length ≤ s.cfg.ledCount)
    (hb : usableBrightness s.brt = none) : execShow ps s = .next (raiseFault .brightnessRange s) := by
  simp [execShow, hp, Nat.not_lt.2 hn, hb]

/-- A command branches on the phase, `N`, `BRT` and its operands alone: with another `ERR` it takes the same branch. -/
theorem exec_withErr {i : Instr} {s t : State} (e : BitVec 4) (h : exec i s = .next t) :
    ∃ e', exec i { s with err := e } = .next { t with err := e' } := by
  cases i with
  | init b =>
    simp only [exec] at h ⊢
    cases hu : usableBrightness b with
    | none =>
      cases (execInit_of_none hu).symm.trans h
      exact ⟨setErr e .brightnessRange, execInit_of_none hu⟩
    | some u =>
      cases (execInit_of_usable hu).symm.trans h
      refine ⟨e, (execInit_of_usable hu).trans (congrArg Host.Outcome.next ?_)⟩
      exact showBody_withErr u [] { s with brt := b, buf := bufClear s.cfg s.buf } e
  | setbrt v =>
    simp only [exec] at h ⊢
    by_cases hp : s.phase = .uninit
    · cases (execSetbrt_of_uninit hp).symm.trans h
      exact ⟨setErr e .notInitialized, execSetbrt_of_uninit hp⟩
    · cases (execSetbrt_of_ne hp).symm.trans h
      exact ⟨e, execSetbrt_of_ne hp⟩
  | showPixels ps =>
    simp only [exec] at h ⊢
    by_cases hp : s.phase = .uninit
    · cases (execShow_of_uninit hp).symm.trans h
      exact ⟨setErr e .notInitialized, execShow_of_uninit hp⟩
    by_cases hn : s.cfg.ledCount < ps.length
    · cases (execShow_of_tooMany hp hn).symm.trans h
      exact ⟨setErr e .invalidArgument, execShow_of_tooMany hp hn⟩
    have hle := Nat.not_lt.1 hn
    cases hb : usableBrightness s.brt with
    | none =>
      cases (execShow_of_tooBright hp hle hb).symm.trans h
      exact ⟨setErr e .brightnessRange, execShow_of_tooBright hp hle hb⟩
    | some b =>
      cases (execShow_of_fill hp hle hb).symm.trans h
      have hfill := execShow_of_fill (s := { s with err := e }) hp hle hb
      exact ⟨e, hfill.trans (congrArg Host.Outcome.next (showBody_withErr b ps s e))⟩

/-- Settles O46. -/
theorem statusLevelsFollowTheState : Obligations.StatusLevelsFollowTheState := by
  intro s
  obtain ⟨hbusy, htx, hfault⟩ := packStatus_levels s.faultLevel s.txActive s.busy s.phase.code
  exact ⟨s.busy_iff, s.txActive_iff, s.faultLevel_iff, packStatus_phase .., hbusy, htx, hfault,
    fun _ e _ _ h => exec_withErr e h, rfl, rfl, rfl, rfl, rfl⟩

/-! The control and status registers (R21). -/

theorem controlRegister_ledcnt_toNat {s : State} (h : s.cfg.ledCount ≤ 65535) :
    (s.controlRegister .ledcnt).toNat = s.cfg.ledCount := by
  rw [State.controlRegister, BitVec.toNat_ofNat]
  exact Nat.mod_eq_of_lt (by omega)

theorem controlRegister_status_toNat (s : State) : (s.controlRegister .status).toNat =
    s.phase.code.toNat + (if s.busy then 8 else 0) + (if s.txActive then 16 else 0) + (if s.faultLevel then 32 else 0) := by
  rw [← packStatus_toNat, State.controlRegister, State.status_eq_packStatus]
  exact BitVec.toNat_setWidth_of_le (by decide)

/-- The values of the registers after reset (R21, R26). -/
theorem started_controlRegisters {c : Config} (script : List Arrival) (hc : c.wf = true) :
    ((State.started c script).controlRegister .ledcnt).toNat = c.ledCount ∧
    (State.started c script).controlRegister .brt = 100 ∧ (State.started c script).controlRegister .status = 0 ∧
    (State.started c script).controlRegister .err = 0 := by
  have hstatus : (State.started c script).status = 0 := State.status_eq_zero rfl rfl
  exact ⟨controlRegister_ledcnt_toNat ((config_wf_iff c).1 hc).2, rfl, by simp [State.controlRegister, hstatus], rfl⟩

/-- `ERR` is set-only (R21). -/
theorem step_controlRegister_err {s t : State} (h : step s = .next t) (hreset : s.arrivals.head? ≠ some .reset) :
    s.controlRegister .err &&& t.controlRegister .err = s.controlRegister .err := by
  refine BitVec.eq_of_getLsbD_eq fun j _ => ?_
  simp only [State.controlRegister, BitVec.getLsbD_and, BitVec.getLsbD_setWidth]
  cases hj : s.err.getLsbD j with
  | false => simp
  | true => simp [step_err_mono h hreset hj]

theorem execSetbrt_writes_brt {v : Byte} {s : State} (h : s.phase = .idle) :
    ∃ t, exec (.setbrt v) s = .next t ∧ t.brt = v :=
  ⟨_, execSetbrt_of_ne (by simp [h]), rfl⟩

theorem execInit_writes_brt {b : Byte} (s : State) (hb : b.toNat ≤ 100) :
    ∃ t, exec (.init b) s = .next t ∧ t.brt = b := by
  obtain ⟨u, hu⟩ := usableBrightness_of_le hb
  exact ⟨_, execInit_of_usable hu, by simp⟩

/-- Settles O47. -/
theorem controlRegistersHoldTheirFields : Obligations.ControlRegistersHoldTheirFields := by
  refine ⟨⟨rfl, rfl, rfl, rfl⟩, fun _ => controlRegister_ledcnt_toNat, fun s => ⟨?_, ?_, controlRegister_status_toNat s,
    s.phase.code_toNat_le⟩, fun _ script => started_controlRegisters script, fun s t h => ?_, fun s v hp => ?_,
    fun s b _ hb => ?_, fun _ _ => step_controlRegister_err⟩
  · exact BitVec.toNat_setWidth_of_le (by decide)
  · exact BitVec.toNat_setWidth_of_le (by decide)
  · simp [State.controlRegister, noStepWritesTheConfiguration s t h]
  · obtain ⟨t, ht, hbrt⟩ := execSetbrt_writes_brt (v := v) hp
    exact ⟨t, ht, congrArg (BitVec.zeroExtend 16) hbrt⟩
  · obtain ⟨t, ht, hbrt⟩ := execInit_writes_brt s hb
    exact ⟨t, ht, congrArg (BitVec.zeroExtend 16) hbrt⟩

end Sys2Proof.Machine
end

section
/-! PROOFS. The buffer (20_memory.md): the symbol store and the clear (R32, R33, R35), the order in which a fill stores its
slots (R41 (a)), what a frame depends on (R39), and the buffer while it is being sent (R41 (b)). -/

namespace Sys2Proof.Machine

/-! The symbol store as a `MemWrite` (R32, R33). -/

theorem lowByte_eq (s : Symbol) : lowByte s = BitVec.ofNat 8 s.toNat := by
  apply BitVec.eq_of_toNat_eq
  simp [lowByte, BitVec.extractLsb'_toNat]

theorem highByte_eq (s : Symbol) : highByte s = BitVec.ofNat 8 (s.toNat / 256) := by
  apply BitVec.eq_of_toNat_eq
  simp [highByte, BitVec.extractLsb'_toNat, Nat.shiftRight_eq_div_pow]

theorem highByte_toNat (s : Symbol) : (highByte s).toNat = s.toNat / 256 := by
  have := s.isLt
  rw [highByte_eq, BitVec.toNat_ofNat]
  omega

theorem symStore_of_full16 {c : Config} (m : Memory) (a : Nat) (s : Symbol) (h : c.storeMode = .full16) :
    symStore c m a s = memWrite m a 2 s.toNat := by
  simp [symStore, h, memWrite, lowByte_eq, highByte_eq]

theorem symStore_of_low8 {c : Config} (m : Memory) (a : Nat) (s : Symbol) (h : c.storeMode = .low8) :
    symStore c m a s = memWrite m a 1 s.toNat := by
  simp [symStore, h, memWrite, lowByte_eq]

/-- Settles O42: a symbol store is a `MemWrite` of two bytes or of one, and what it leaves is read back by the laws of both. -/
theorem symStoreWritesItsSlotOnly : Obligations.SymStoreWritesItsSlotOnly := by
  intro c m a s
  refine ⟨by simp [lowByte_eq], highByte_toNat s, by rw [symStore_read_even, lowByte_eq], fun hmode => ⟨?_, ?_, ?_⟩,
    fun hmode => ⟨?_, symStore_of_low8 m a s hmode⟩, fun x hx hx' => symStore_read_other c m s hx hx'⟩
  · rw [symStore_read_odd, if_pos hmode, highByte_eq]
  · exact symStore_of_full16 m a s hmode
  · rw [symStore_of_full16 m a s hmode, (memReadGivesWhatMemWriteWrote m a 2 s.toNat).1,
      Nat.mod_eq_of_lt (show s.toNat < 256 ^ 2 from s.isLt)]
  · rw [symStore_read_odd, if_neg (by simp [hmode])]

/-- Settles O44. -/
theorem bufClearZeroesTheBuffer : Obligations.BufClearZeroesTheBuffer := by
  intro c m a
  rw [bufClear_read, bufLen]
  exact ⟨fun h => if_pos h, fun h => if_neg (Nat.not_lt.2 h)⟩

/-! While `TX` (R41 (b), R144). -/

theorem takeTxDone_frame (s : State) : (takeTxDone s).frame = s.frame := by
  by_cases hp : s.phase = .tx
  · rw [takeTxDone_of_tx hp]; rfl
  · rw [takeTxDone_of_ne_tx hp]

/-- Settles O19: in `TX` a step takes a `TxDone` or holds what is presented, and neither touches the buffer. -/
theorem bufferIsStableDuringTransmit : Obligations.BufferIsStableDuringTransmit := by
  intro s t hp hreset h
  cases step_cases h with
  | reset as ha => simp [ha] at hreset
  | txDone as _ => exact ⟨takeTxDone_buf _, takeTxDone_frame _⟩
  | held as ws _ _ => exact ⟨rfl, rfl⟩
  | command as ws _ hp' i rest _ _ _ => simp [hp] at hp'
  | illegal as ws _ hp' why rest _ => simp [hp] at hp'
  | incomplete as ws _ hp' _ => simp [hp] at hp'
  | enc as _ hp' _ _ => simp [hp] at hp'
  | off as _ hp' _ _ => simp [hp] at hp'

/-! The machine goes on (R36, R81). -/

/-- Settles O55. -/
theorem invariantStatesNeverStop : Obligations.InvariantStatesNeverStop := fun _ h => h.step_answers

/-! What a fill leaves is the same whatever the buffer held (R39, R103). -/

theorem Memory.read_eq_none_of_not_mem {m : Memory} {a : Nat} (h : a ∉ m.map Prod.fst) : m.read a = none := by
  induction m with
  | nil => rfl
  | cons c m ih =>
    obtain ⟨x, v⟩ := c
    rw [List.map_cons, List.mem_cons, not_or] at h
    rw [Memory.read, if_neg (Ne.symm h.1), ih h.2]

/-- Every slot of the buffer holds its symbol after a fill (R103). -/
theorem slotHolds_fill {c : Config} {m : Memory} {b : Brightness} {ps : List Pixel} {j : Nat} (hclear : OddBytesClear c m)
    (hn : ps.length ≤ c.ledCount) (hj : j < slotCount c) :
    SlotHolds c (fill c b ps m) (2 * j) (filledSymbol c b ps (j / 12) (j % 12)) :=
  slotHolds_of_reads hclear hj (fill_read_even m hn hj) (fill_read_odd m hn hj)

/-- Each byte of the buffer has the same value after a fill, whatever two buffers it was done in. -/
theorem fill_read_agree {c : Config} {m m' : Memory} {b : Brightness} {ps : List Pixel} {a : Nat}
    (hclear : OddBytesClear c m) (hclear' : OddBytesClear c m') (hn : ps.length ≤ c.ledCount) (ha : a < bufLen c) :
    ∃ v, (fill c b ps m).read a = some v ∧ (fill c b ps m').read a = some v := by
  obtain ⟨j, hj⟩ : ∃ j, a = 2 * j ∨ a = 2 * j + 1 := ⟨a / 2, by omega⟩
  have hcount : j < slotCount c := by rw [bufLen] at ha; rw [slotCount]; omega
  have h := slotHolds_fill (b := b) hclear hn hcount
  have h' := slotHolds_fill (b := b) hclear' hn hcount
  rcases hj with rfl | rfl
  · exact ⟨_, h.even, h'.even⟩
  · exact ⟨_, h.odd, h'.odd⟩

/-- Two buffers of the full extent are the same after the same fill. -/
theorem fill_eq_of_extent {c : Config} {m m' : Memory} {b : Brightness} {ps : List Pixel}
    (hext : m.map Prod.fst = List.range (bufLen c)) (hext' : m'.map Prod.fst = List.range (bufLen c))
    (hclear : OddBytesClear c m) (hclear' : OddBytesClear c m') (hn : ps.length ≤ c.ledCount) :
    fill c b ps m = fill c b ps m' := by
  have hwf {n : Memory} (h : n.map Prod.fst = List.range (bufLen c)) : n.wf :=
    (Memory.wf_iff_offsets n).2 (h ▸ List.pairwise_lt_range)
  refine Memory.ext_read (fill_wf (hwf hext)) (fill_wf (hwf hext')) fun a => ?_
  by_cases ha : a < bufLen c
  · obtain ⟨v, h, h'⟩ := fill_read_agree (b := b) hclear hclear' hn ha
    rw [h, h']
  · rw [Memory.read_eq_none_of_not_mem (by simpa [fill_offsets hext hn] using ha),
      Memory.read_eq_none_of_not_mem (by simpa [fill_offsets hext' hn] using ha)]

/-- A `SHOW` from `IDLE` that hands a frame over at the command level ran its fill (R100). -/
theorem exec_show_handsOver {ps : List Pixel} {s t : State} (hp : s.phase = .idle) (hlevel : s.cfg.level = .command)
    (h : exec (.showPixels ps) s = .next t) (ht : t.phase = .tx) :
    ps.length ≤ s.cfg.ledCount ∧ ∃ b, usableBrightness s.brt = some b ∧ t = runFill b ps (startFill ps s) := by
  rcases exec_cases h with ⟨c, _, rfl⟩ | ⟨v, hi, _⟩ | ⟨b, u, hi, _⟩ | ⟨qs, b, hi, _, hn, hb, rfl⟩
  · simp [hp] at ht
  · cases hi
  · cases hi
  · cases hi; exact ⟨hn, b, hb, showBody_of_command hlevel⟩

/-- Settles O35: both run the same fill; the clear odd bytes of the invariant make its result the same in both buffers. -/
theorem frameForgetsEarlierShows : Obligations.FrameForgetsEarlierShows := by
  intro s s' t t' ps hinv hinv' hp hp' hcfg hlevel hbrt ht ht' htx
  obtain ⟨hn, b, hb, rfl⟩ := exec_show_handsOver hp hlevel ht htx
  have hp0 : s.phase ≠ .uninit := by simp [hp]
  have hp0' : s'.phase ≠ .uninit := by simp [hp']
  obtain rfl : t' = runFill b ps (startFill ps s') := by
    have hfill : exec (.showPixels ps) s' = .next (showBody b ps s') :=
      execShow_of_fill hp0' (hcfg ▸ hn) (hbrt ▸ hb)
    rw [showBody_of_command (hcfg ▸ hlevel)] at hfill
    cases hfill.symm.trans ht'
    rfl
  have hclear : OddBytesClear s.cfg s.buf := hinv.oddBytesClear hp0
  have hclear' : OddBytesClear s.cfg s'.buf := hcfg ▸ hinv'.oddBytesClear hp0'
  have hbuf : fill s.cfg b ps s.buf = fill s'.cfg b ps s'.buf :=
    hcfg ▸ fill_eq_of_extent (hinv.bufExtent hp0) (hcfg ▸ hinv'.bufExtent hp0') hclear hclear' hn
  refine ⟨rfl, State.frame_congr_read hcfg fun a ha => ?_, hbuf⟩
  obtain ⟨v, _, h'⟩ := fill_read_agree (b := b) hclear hclear' hn ha
  exact ⟨congrArg (Memory.read · a) hbuf, .inr ⟨v, by simpa [← hcfg] using h'⟩⟩

/-! A fill slot by slot (R107 to R109): the state after each step, written out. -/

/-- A fill of `ps` begun in `s`, its first `j` slots stored, in phase `p` with the latches `I` and `K` at `i` and `k`. `SC` is
that of the last pixel begun. -/
def storedTo (b : Brightness) (ps : List Pixel) (s : State) (j i k : Nat) (p : Phase) : State :=
  { startFill ps s with
    buf := storeSlots s.cfg s.buf 0 ((fillSymbols s.cfg b ps).take j)
    wp := 2 * j
    i := i
    k := k
    sc := scaledAfter b (ps.take ((j + 11) / 12)) s.sc
    phase := p }

/-- The state after `j` steps of a fill of `ps` begun in `s` (R106): in `ENC` up to the last slot of the last pixel, then in
`OFF`. -/
def fillAfter (b : Brightness) (ps : List Pixel) (s : State) (j : Nat) : State :=
  if j < 12 * ps.length then storedTo b ps s j (j / 12) (j % 12) .enc else storedTo b ps s j ps.length 0 .off

section
variable {b : Brightness} {ps : List Pixel} {s : State} {j : Nat}

theorem fillAfter_of_lit (h : j < 12 * ps.length) : fillAfter b ps s j = storedTo b ps s j (j / 12) (j % 12) .enc := if_pos h

theorem fillAfter_of_off (h : 12 * ps.length ≤ j) : fillAfter b ps s j = storedTo b ps s j ps.length 0 .off :=
  if_neg (Nat.not_lt.2 h)

theorem fillAfter_zero : fillAfter b ps s 0 = startFill ps s := by
  cases ps with
  | nil => rfl
  | cons p ps => exact fillAfter_of_lit (by simp)

theorem fillAfter_phase : (fillAfter b ps s j).phase = if j < 12 * ps.length then .enc else .off := by
  unfold fillAfter; split <;> rfl

theorem fillAfter_wp : (fillAfter b ps s j).wp = 2 * j := by unfold fillAfter; split <;> rfl

theorem fillAfter_outputs : (fillAfter b ps s j).outputs = s.outputs := by unfold fillAfter; split <;> rfl

theorem fillAfter_arrivals : (fillAfter b ps s j).arrivals = s.arrivals := by unfold fillAfter; split <;> rfl

theorem fillAfter_buf :
    (fillAfter b ps s j).buf = storeSlots s.cfg s.buf 0 ((fillSymbols s.cfg b ps).take j) := by
  unfold fillAfter; split <;> rfl

/-- The store of slot `j`: stage S1 has set `SC`, and the symbol is the fill's. -/
theorem storeAtWp_storedTo {i k : Nat} {p : Phase} {sc : BitVec 24} (hn : ps.length ≤ s.cfg.ledCount)
    (hj : j < 12 * s.cfg.ledCount) (hsc : sc = scaledAfter b (ps.take (j / 12 + 1)) s.sc) :
    storeAtWp (filledSymbol s.cfg b ps (j / 12) (j % 12)) { storedTo b ps s j i k p with sc := sc } =
      storedTo b ps s (j + 1) i k p := by
  have hlen : j < (fillSymbols s.cfg b ps).length := by rwa [fillSymbols_length hn]
  have htake : (fillSymbols s.cfg b ps).take (j + 1) =
      (fillSymbols s.cfg b ps).take j ++ [filledSymbol s.cfg b ps (j / 12) (j % 12)] := by
    rw [List.take_succ_eq_append_getElem hlen, fillSymbols_getElem hlen]
  have hbuf := storeSlots_snoc s.cfg s.buf 0 ((fillSymbols s.cfg b ps).take j) (filledSymbol s.cfg b ps (j / 12) (j % 12))
  rw [← htake, List.length_take_of_le hlen.le, Nat.zero_add] at hbuf
  simp only [storedTo, storeAtWp, hbuf, hsc, show (j + 1 + 11) / 12 = j / 12 + 1 by omega, Nat.mul_add]
  rfl

/-- The scaled word once pixel `i` is begun is that pixel's. -/
theorem scaledAfter_take {p : Pixel} {i : Nat} (old : BitVec 24) (h : ps[i]? = some p) :
    scaledAfter b (ps.take (i + 1)) old = scaleGRB p b := by
  simp [scaledAfter, List.take_add_one, h]

/-- Stage S1 of step `j` (R107). -/
theorem encScaled_storedTo {p : Pixel} (hb : usableBrightness s.brt = some b) (hpix : ps[j / 12]? = some p) :
    encScaled (storedTo b ps s j (j / 12) (j % 12) .enc) = some (scaleGRB p b) := by
  by_cases hk : j % 12 = 0
  · simp [encScaled, storedTo, hk, hpix, hb]
  · have hsc := scaledAfter_take (b := b) s.sc hpix
    rw [show j / 12 + 1 = (j + 11) / 12 by omega] at hsc
    simp [encScaled, storedTo, hk, hsc]

/-- What step `j - 1` of a fill leads to: `j` slots stored, and the hand-over once that is all of them (R107, R108). -/
def fillNext (b : Brightness) (ps : List Pixel) (s : State) (j : Nat) : State :=
  if j = 12 * s.cfg.ledCount then handOver (fillAfter b ps s j) else fillAfter b ps s j

theorem fillNext_of_lt (h : j < 12 * s.cfg.ledCount) : fillNext b ps s j = fillAfter b ps s j := if_neg h.ne

theorem fillNext_all (hn : ps.length ≤ s.cfg.ledCount) :
    fillNext b ps s (12 * s.cfg.ledCount) = handOver (storedTo b ps s (12 * s.cfg.ledCount) ps.length 0 .off) := by
  rw [fillNext, if_pos rfl, fillAfter_of_off (by omega)]

/-- The advance after slot `j`, lit, is stored (R107): within a pixel, to the next, to `OFF`, to the hand-over. -/
theorem encAdvance_storedTo (hn : ps.length ≤ s.cfg.ledCount) (hj : j < 12 * ps.length) :
    encAdvance (storedTo b ps s (j + 1) (j / 12) (j % 12) .enc) = fillNext b ps s (j + 1) := by
  rcases encAdvance_cases (storedTo b ps s (j + 1) (j / 12) (j % 12) .enc) with
      ⟨hk, e⟩ | ⟨hk, hlast, hroom, e⟩ | ⟨hk, hlast, hfull, e⟩ | ⟨hk, hnext, e⟩ <;> rw [e] <;>
    simp only [storedTo, startFill_cfg, startFill_npix] at hk
  · rw [fillNext_of_lt (by omega), fillAfter_of_lit (by omega), show (j + 1) / 12 = j / 12 by omega,
      show (j + 1) % 12 = j % 12 + 1 by omega]
    rfl
  · have hlast : j / 12 + 1 = ps.length := hlast
    have hroom : ps.length < s.cfg.ledCount := hroom
    rw [fillNext_of_lt (by omega), fillAfter_of_off (by omega), ← hlast]
    rfl
  · have hlast : j / 12 + 1 = ps.length := hlast
    have hfull : ¬ ps.length < s.cfg.ledCount := hfull
    rw [show j + 1 = 12 * s.cfg.ledCount by omega, fillNext_all hn, ← hlast]
    rfl
  · have hnext : j / 12 + 1 ≠ ps.length := hnext
    rw [fillNext_of_lt (by omega), fillAfter_of_lit (by omega), show (j + 1) / 12 = j / 12 + 1 by omega,
      show (j + 1) % 12 = 0 by omega]
    rfl

/-- The end of a step in `OFF` (R108). -/
theorem offAdvance_storedTo (hn : ps.length ≤ s.cfg.ledCount) (hj : 12 * ps.length ≤ j) (hlt : j < 12 * s.cfg.ledCount) :
    offAdvance (storedTo b ps s (j + 1) ps.length 0 .off) = fillNext b ps s (j + 1) := by
  rcases offAdvance_cases (storedTo b ps s (j + 1) ps.length 0 .off) with ⟨hwp, e⟩ | ⟨hwp, e⟩ <;> rw [e] <;>
    simp only [storedTo, startFill_cfg, bufLen] at hwp
  · rw [show j + 1 = 12 * s.cfg.ledCount by omega, fillNext_all hn]
  · rw [fillNext_of_lt (by omega), fillAfter_of_off (by omega)]

/-- Step `j` of a fill when slot `j` is lit (R107). -/
theorem encStep_storedTo (hn : ps.length ≤ s.cfg.ledCount) (hb : usableBrightness s.brt = some b)
    (hj : j < 12 * ps.length) :
    encStep (storedTo b ps s j (j / 12) (j % 12) .enc) = .next (fillNext b ps s (j + 1)) := by
  have hpix : ps[j / 12]? = some (ps[j / 12]'(by omega)) := List.getElem?_eq_getElem _
  have hready : encReady (storedTo b ps s j (j / 12) (j % 12) .enc) = true := by
    simp only [encReady_iff, storedTo, startFill_cfg, startFill_npix, startFill_pq, slotAddr, hn, and_true]
    omega
  have hstore := storeAtWp_storedTo (b := b) (i := j / 12) (k := j % 12) (p := .enc) hn (by omega)
    (scaledAfter_take s.sc hpix).symm
  rw [filledSymbol, hpix] at hstore
  rw [encStep, if_pos hready, encScaled_storedTo hb hpix, ← encAdvance_storedTo hn hj, ← hstore]
  rfl

/-- Step `j` of a fill when slot `j` is past the lit ones (R108). -/
theorem offStep_storedTo (hn : ps.length ≤ s.cfg.ledCount) (hoff : 12 * ps.length ≤ j) (hj : j < 12 * s.cfg.ledCount) :
    offStep (storedTo b ps s j ps.length 0 .off) = .next (fillNext b ps s (j + 1)) := by
  have hready : offReady (storedTo b ps s j ps.length 0 .off) = true := by
    simp only [offReady_iff, storedTo, startFill_cfg, startFill_npix, bufLen]
    omega
  have hsc : scaledAfter b (ps.take ((j + 11) / 12)) s.sc = scaledAfter b (ps.take (j / 12 + 1)) s.sc := by
    rw [List.take_of_length_le (by omega), List.take_of_length_le (by omega)]
  have hstore := storeAtWp_storedTo (i := ps.length) (k := 0) (p := .off) hn hj hsc
  rw [filledSymbol, List.getElem?_eq_none (by omega)] at hstore
  rw [offStep, if_pos hready, ← offAdvance_storedTo hn hoff hj, ← hstore]
  rfl

/-- Step `j` of a fill (R106). -/
theorem step_fillAfter (ha : s.arrivals = []) (hn : ps.length ≤ s.cfg.ledCount) (hb : usableBrightness s.brt = some b)
    (hj : j < 12 * s.cfg.ledCount) : step (fillAfter b ps s j) = .next (fillNext b ps s (j + 1)) := by
  rw [step_eq_encoderStep (fillAfter_arrivals.trans ha)]
  by_cases hlit : j < 12 * ps.length
  · rw [fillAfter_of_lit hlit]
    exact encStep_storedTo hn hb hlit
  · rw [fillAfter_of_off (Nat.not_lt.1 hlit)]
    exact offStep_storedTo hn (Nat.not_lt.1 hlit) hj

/-- The run of a started fill, up to its last step. -/
theorem run_startFill (ha : s.arrivals = []) (hn : ps.length ≤ s.cfg.ledCount) (hb : usableBrightness s.brt = some b)
    (hj : j < 12 * s.cfg.ledCount) : core.run j (startFill ps s) = .next (fillAfter b ps s j) := by
  induction j with
  | zero => rw [run_zero, fillAfter_zero]
  | succ j ih =>
    have hstep := step_fillAfter ha hn hb (Nat.lt_of_succ_lt hj)
    rw [fillNext_of_lt hj] at hstep
    rw [run_add j 1 (ih (Nat.lt_of_succ_lt hj)), run_of_next hstep, run_zero]

/-! The bytes after `j` steps. -/

/-- The bytes of a slot stored. -/
theorem fillAfter_read_slot {x : Nat} (hn : ps.length ≤ s.cfg.ledCount) (hj : j ≤ 12 * s.cfg.ledCount) (hx : x < j) :
    (fillAfter b ps s j).buf.read (2 * x) = some (lowByte (filledSymbol s.cfg b ps (x / 12) (x % 12))) ∧
    (fillAfter b ps s j).buf.read (2 * x + 1) =
      if s.cfg.storeMode = .full16 then some (highByte (filledSymbol s.cfg b ps (x / 12) (x % 12)))
      else s.buf.read (2 * x + 1) := by
  have hlen : (fillSymbols s.cfg b ps).length = 12 * s.cfg.ledCount := fillSymbols_length hn
  have hx' : x < ((fillSymbols s.cfg b ps).take j).length := by rw [List.length_take]; omega
  have hsym : ((fillSymbols s.cfg b ps).take j)[x] = filledSymbol s.cfg b ps (x / 12) (x % 12) := by
    rw [List.getElem_take, fillSymbols_getElem]
  have heven := storeSlots_read_even s.cfg s.buf 0 _ hx'
  have hodd := storeSlots_read_odd s.cfg s.buf 0 _ hx'
  rw [hsym, Nat.zero_add, ← fillAfter_buf] at heven hodd
  exact ⟨heven, hodd⟩

/-- The bytes not yet reached. -/
theorem fillAfter_read_beyond {a : Nat} (h : 2 * j ≤ a) : (fillAfter b ps s j).buf.read a = s.buf.read a := by
  rw [fillAfter_buf, storeSlots_read_other]
  rw [List.length_take]
  omega

end

/-- Settles O33: the state after `j` steps is `fillAfter`, whose fields say each clause. -/
theorem fillWritesItsSlotsInOrder : Obligations.FillWritesItsSlotsInOrder := by
  intro s ps b j ha hn hb hj
  refine ⟨_, run_startFill ha hn (usableBrightness_eq_some.2 hb) hj, fillAfter_wp, fillAfter_outputs,
    fun hlit => fillAfter_phase.trans (if_pos hlit), fun hoff => fillAfter_phase.trans (if_neg (Nat.not_lt.2 hoff)),
    fun x hx => (fillAfter_read_slot hn hj.le hx).1, fun x hx hmode => ?_, fun x hx hmode => ?_,
    fun a h => fillAfter_read_beyond h⟩
  · exact (fillAfter_read_slot hn hj.le hx).2.trans (if_pos hmode)
  · exact (fillAfter_read_slot hn hj.le hx).2.trans (if_neg (by simp [hmode]))

end Sys2Proof.Machine
end

section
/-! PROOFS. Encoding (30_encoding.md): the decoder case by case on the number a word is (R58), decoder and encoder as
inverses of each other (R54, R57), the bits of the opcode table (log 18), the assembler (R60, R61), and the step that
executes a decoded command (R55). -/

namespace Sys2Proof.Machine

/-! The decoder on the number a word is (R58). -/

theorem ofNat_eq_of_mod {k n : Nat} {x : BitVec k} (h : n % 2 ^ k = x.toNat) : BitVec.ofNat k n = x :=
  BitVec.eq_of_toNat_eq ((BitVec.toNat_ofNat n k).trans h)

theorem opField_eq_one_iff {w : Word} : opField w = 0x01 ↔ w.toNat / 2 ^ 24 = 1 := opField_eq_iff (n := 1) (by decide)

theorem opField_eq_two_iff {w : Word} : opField w = 0x02 ↔ w.toNat / 2 ^ 24 = 2 := opField_eq_iff (n := 2) (by decide)

theorem opField_eq_three_iff {w : Word} : opField w = 0x03 ↔ w.toNat / 2 ^ 24 = 3 := opField_eq_iff (n := 3) (by decide)

section
variable {w : Word} (q : List Word)

theorem decode_of_init_opcode (h : w.toNat / 2 ^ 24 = 1) : decode (w :: q) =
    if w.toNat / 2 ^ 8 % 2 ^ 16 = 0 then .instr (.init (BitVec.ofNat 8 w.toNat)) q else .illegal .reservedNotZero q := by
  simp only [decode_init q (opField_eq_one_iff.2 h), reserved_eq_zero_iff, loField_eq]

theorem decode_of_setbrt_opcode (h : w.toNat / 2 ^ 24 = 2) : decode (w :: q) =
    if w.toNat / 2 ^ 8 % 2 ^ 16 = 0 then .instr (.setbrt (BitVec.ofNat 8 w.toNat)) q else .illegal .reservedNotZero q := by
  simp only [decode_setbrt q (opField_eq_two_iff.2 h), reserved_eq_zero_iff, loField_eq]

theorem decode_of_show_opcode (h : w.toNat / 2 ^ 24 = 3) : decode (w :: q) =
    if w.toNat / 2 ^ 16 % 2 ^ 8 = 0 then decodePixels (w.toNat % 2 ^ 16) q else .illegal .reservedNotZero q := by
  simp only [decode_show q (opField_eq_three_iff.2 h), zField_eq_zero_iff, countField_eq, Nat.reducePow]

theorem decode_of_other_opcode (h1 : w.toNat / 2 ^ 24 ≠ 1) (h2 : w.toNat / 2 ^ 24 ≠ 2) (h3 : w.toNat / 2 ^ 24 ≠ 3) :
    decode (w :: q) = .illegal .undefinedOpcode q :=
  decode_undefined q (mt opField_eq_one_iff.1 h1) (mt opField_eq_two_iff.1 h2) (mt opField_eq_three_iff.1 h3)

end

section
variable {n : Nat} {q : List Word}

theorem decodePixels_of_short (h : q.length < n) : decodePixels n q = .incomplete := if_pos h

theorem decodePixels_of_bad (h : n ≤ q.length) (hbad : ∃ x ∈ q.take n, x.toNat / 2 ^ 24 ≠ 0) :
    decodePixels n q = .illegal .pixelTopByteNotZero (q.drop n) := by
  obtain ⟨x, hx, hne⟩ := hbad
  rw [decodePixels, if_neg (Nat.not_lt.2 h), if_neg]
  exact fun hall => hne (pixelWordLegal_iff.1 (List.all_eq_true.1 hall x hx))

theorem decodePixels_of_legal (h : n ≤ q.length) (hok : ∀ x ∈ q.take n, x.toNat / 2 ^ 24 = 0) :
    decodePixels n q = .instr (.showPixels ((q.take n).map pixelOfWord)) (q.drop n) := by
  rw [decodePixels, if_neg (Nat.not_lt.2 h), if_pos]
  exact List.all_eq_true.2 fun x hx => pixelWordLegal_iff.2 (hok x hx)

end

/-- Settles O3: the decoder's equation for each opcode, and for a `SHOW` the three outcomes of its operand words. -/
theorem decodeFollowsTheOpcodeMap : Obligations.DecodeFollowsTheOpcodeMap := by
  intro w q
  refine ⟨fun hop => ⟨fun hz => ⟨.reservedNotZero, ?_⟩, fun hz => ?_⟩,
    fun hop => ⟨fun hz => ⟨.reservedNotZero, ?_⟩, fun hz => ?_⟩,
    fun hop => ⟨fun hz => ⟨.reservedNotZero, ?_⟩, fun hz => ?_⟩,
    fun h1 h2 h3 => ⟨_, decode_of_other_opcode q h1 h2 h3⟩⟩
  · rw [decode_of_init_opcode q hop, if_neg hz]
  · rw [decode_of_init_opcode q hop, if_pos hz]
  · rw [decode_of_setbrt_opcode q hop, if_neg hz]
  · rw [decode_of_setbrt_opcode q hop, if_pos hz]
  · rw [decode_of_show_opcode q hop, if_neg hz]
  · rw [decode_of_show_opcode q hop, if_pos hz]
    refine ⟨decodePixels_of_short, fun hlen hbad => ⟨_, decodePixels_of_bad hlen hbad⟩, fun hlen hok => ?_⟩
    rw [decodePixels_of_legal hlen hok, funext pixelOfWord_eq]

/-! Decoder and encoder undo each other (R54, R57). -/

theorem decode_encode {i : Instr} (rest : List Word) (hi : i.wf = true) : decode (encode i ++ rest) = .instr i rest := by
  cases i with
  | init b =>
    have hw := initWord_toNat b
    have := b.isLt
    rw [encode, List.singleton_append, decode_of_init_opcode rest (by omega), if_pos (by omega), hw,
      ofNat_eq_of_mod (x := b) (by omega)]
  | setbrt v =>
    have hw := setbrtWord_toNat v
    have := v.isLt
    rw [encode, List.singleton_append, decode_of_setbrt_opcode rest (by omega), if_pos (by omega), hw,
      ofNat_eq_of_mod (x := v) (by omega)]
  | showPixels ps =>
    have hn : ps.length ≤ 65535 := of_decide_eq_true hi
    have hw := showWord_toNat hn
    rw [encode, List.cons_append, decode_of_show_opcode _ (by omega), if_pos (by omega), hw,
      show (0x03000000 + ps.length) % 2 ^ 16 = ps.length by omega, decodePixels_map_encode]

theorem decode_encode_alone {i : Instr} (hi : i.wf = true) : decode (encode i) = .instr i [] := by
  simpa using decode_encode [] hi

/-- Settles O1: the number each encoded word is picks the decoder's case. -/
theorem decodeOfEncodeIsTheCommand : Obligations.DecodeOfEncodeIsTheCommand := fun _ rest hi => decode_encode rest hi

/-- Operand words that decode are those of the `SHOW`'s pixels: each is legal, so it is the word of its pixel. -/
theorem decodePixels_eq_instr {n : Nat} {q rest : List Word} {i : Instr} (h : decodePixels n q = .instr i rest) :
    ∃ ps, i = .showPixels ps ∧ ps.length = n ∧ q = ps.map encodePixelWord ++ rest := by
  unfold decodePixels at h
  split at h
  · cases h
  · next hlen =>
    split at h
    · next hall =>
      obtain ⟨rfl, rfl⟩ := Decoded.instr.inj h
      have hwords : (q.take n).map (encodePixelWord ∘ pixelOfWord) = q.take n :=
        (List.map_congr_left fun x hx => encodePixelWord_pixelOfWord (List.all_eq_true.1 hall x hx)).trans (List.map_id _)
      refine ⟨_, rfl, ?_, ?_⟩
      · rw [List.length_map, List.length_take]; omega
      · rw [List.map_map, hwords, List.take_append_drop]
    · cases h

/-- An `INIT` or `SETBRT` word that decodes has its reserved bits zero. -/
theorem byteCommand_eq_instr {f : Byte → Instr} {w : Word} {q rest : List Word} {i : Instr}
    (h : (if w.toNat / 2 ^ 8 % 2 ^ 16 = 0 then .instr (f (BitVec.ofNat 8 w.toNat)) q else .illegal .reservedNotZero q) =
      Decoded.instr i rest) :
    i = f (BitVec.ofNat 8 w.toNat) ∧ w.toNat / 2 ^ 8 % 2 ^ 16 = 0 ∧ q = rest := by
  split at h
  · next hz =>
    obtain ⟨rfl, rfl⟩ := Decoded.instr.inj h
    exact ⟨rfl, hz, rfl⟩
  · cases h

/-- The decoder's inversion: a command comes from a word with the reserved bits zero, by its opcode. -/
theorem decode_eq_instr {w : Word} {q rest : List Word} {i : Instr} (h : decode (w :: q) = .instr i rest) :
    i.wf = true ∧ w :: q = encode i ++ rest := by
  by_cases h1 : w.toNat / 2 ^ 24 = 1
  · obtain ⟨rfl, hz, rfl⟩ := byteCommand_eq_instr ((decode_of_init_opcode q h1).symm.trans h)
    exact ⟨rfl, congrArg (· :: q) (ofNat_eq_of_mod (by rw [BitVec.toNat_ofNat]; omega)).symm⟩
  by_cases h2 : w.toNat / 2 ^ 24 = 2
  · obtain ⟨rfl, hz, rfl⟩ := byteCommand_eq_instr ((decode_of_setbrt_opcode q h2).symm.trans h)
    exact ⟨rfl, congrArg (· :: q) (ofNat_eq_of_mod (by rw [BitVec.toNat_ofNat]; omega)).symm⟩
  by_cases h3 : w.toNat / 2 ^ 24 = 3
  · rw [decode_of_show_opcode q h3] at h
    split at h
    · obtain ⟨ps, rfl, hn, rfl⟩ := decodePixels_eq_instr h
      exact ⟨decide_eq_true (by omega), congrArg (· :: _) (ofNat_eq_of_mod (by omega)).symm⟩
    · cases h
  · rw [decode_of_other_opcode q h1 h2 h3] at h
    cases h

/-- Settles O2: no command comes from no words; else by the first word's opcode. -/
theorem decodedWordsAreTheEncoding : Obligations.DecodedWordsAreTheEncoding := by
  intro ws i rest h
  cases ws with
  | nil => cases h
  | cons w q => exact decode_eq_instr h

/-! The bits of the opcode table (log 18). -/

/-- The number whose bits are the words `ws`, the first in bits 31 to 0. -/
def packWords (ws : List Word) : Nat := ws.foldr (fun w v => w.toNat + 2 ^ 32 * v) 0

theorem packWords_cons (w : Word) (ws : List Word) : packWords (w :: ws) = w.toNat + 2 ^ 32 * packWords ws := rfl

theorem ofNat_packWords_cons (w : Word) (ws : List Word) : BitVec.ofNat 32 (packWords (w :: ws)) = w := by
  have := w.isLt
  exact ofNat_eq_of_mod (by rw [packWords_cons]; omega)

theorem packWords_lt (ws : List Word) : packWords ws < 2 ^ (32 * ws.length) := by
  induction ws with
  | nil => decide
  | cons w ws ih =>
    rw [packWords_cons, List.length_cons, Nat.mul_succ, Nat.add_comm (32 * _), Nat.pow_add]
    have := w.isLt
    omega

/-- Cut into 32-bit words, the packed number gives the words back. -/
theorem words_of_packWords (ws : List Word) :
    (List.range ws.length).map (fun j => BitVec.ofNat 32 (packWords ws >>> (32 * j))) = ws := by
  induction ws with
  | nil => rfl
  | cons w ws ih =>
    have hw := w.isLt
    have hlater (j : Nat) : packWords (w :: ws) >>> (32 * (j + 1)) = packWords ws >>> (32 * j) := by
      rw [Nat.mul_succ, Nat.add_comm, Nat.shiftRight_add, Nat.shiftRight_eq_div_pow _ 32, packWords_cons]
      congr 1; omega
    rw [List.length_cons, List.range_succ_eq_map, List.map_cons, List.map_map]
    simp only [Function.comp_def, Nat.succ_eq_add_one, hlater, ih, Nat.mul_zero, Nat.shiftRight_zero, ofNat_packWords_cons]

/-- The table's bits as one list of words, cut to the length that the first of them gives. -/
theorem tableWords_eq_map (nbits w : Nat) : tableWords nbits w =
    (List.range (commandLength (BitVec.ofNat 32 (w % 2 ^ nbits)) - 1 + 1)).map
      (fun j => BitVec.ofNat 32 ((w % 2 ^ nbits) >>> (32 * j))) := by
  rw [List.range_succ_eq_map, List.map_cons, List.map_map]
  rfl

theorem encode_length_eq_commandLength {i : Instr} (hi : i.wf = true) :
    ∃ w q, encode i = w :: q ∧ (encode i).length = commandLength w := by
  cases i with
  | init b => exact Laws.EncodedLength.init b hi
  | setbrt v => exact Laws.EncodedLength.setbrt v hi
  | showPixels ps => exact Laws.EncodedLength.showPixels ps hi

theorem tableWords_packWords {w : Word} {q : List Word} (h : (w :: q).length = commandLength w) :
    tableWords (32 * (w :: q).length) (packWords (w :: q)) = w :: q := by
  rw [tableWords_eq_map, Nat.mod_eq_of_lt (packWords_lt _), ofNat_packWords_cons, ← h, List.length_cons, Nat.add_sub_cancel]
  exact words_of_packWords (w :: q)

theorem decodeTableWord_of_encode {nbits w : Nat} {i : Instr} (hi : i.wf = true) (h : tableWords nbits w = encode i) :
    decodeTableWord nbits w = some i := by
  rw [decodeTableWord, h, decode_encode_alone hi]

theorem commandLength_showWord {n : Nat} (h : n ≤ 65535) : commandLength (BitVec.ofNat 32 (0x03000000 + n)) = 1 + n := by
  rw [commandLength, if_pos, countField_eq, showWord_toNat h]
  · omega
  · rw [opField_eq_three_iff, zField_eq_zero_iff, showWord_toNat h]
    omega

/-- The first word of a `SHOW` alone is followed by words that are zero, the words of black pixels. -/
theorem tableWords_show {n : Nat} (h : n ≤ 65535) :
    tableWords 32 (0x03000000 + n) = encode (.showPixels (List.replicate n ⟨0, 0, 0⟩)) := by
  have hlt : 0x03000000 + n < 2 ^ 32 := by omega
  have hlater (j : Nat) : (0x03000000 + n) >>> (32 * (j + 1)) = 0 :=
    Nat.shiftRight_eq_zero _ _ (hlt.trans_le (Nat.pow_le_pow_right (by decide) (by omega)))
  simp only [tableWords, Nat.mod_eq_of_lt hlt, commandLength_showWord h, hlater, Nat.add_sub_cancel_left, encode,
    List.length_replicate, List.map_const', List.length_range, List.map_replicate]
  rfl

/-- Settles O11: the table's bits, cut into words again, are the command's encoding, which decodes to it. -/
theorem tableBitsDecodeToTheCommand : Obligations.TableBitsDecodeToTheCommand := by
  refine ⟨fun i hi => ?_, fun n hn => ?_⟩
  · obtain ⟨w, q, he, hlen⟩ := encode_length_eq_commandLength hi
    refine decodeTableWord_of_encode hi ?_
    rw [he] at hlen ⊢
    exact tableWords_packWords hlen
  · exact decodeTableWord_of_encode (decide_eq_true (by rwa [List.length_replicate])) (tableWords_show hn)

/-! The assembler (R60, R61). -/

/-- Every channel of a written pixel fits 8 bits. -/
def PixelFits (p : Nat × Nat × Nat) : Prop := p.1 ≤ 255 ∧ p.2.1 ≤ 255 ∧ p.2.2 ≤ 255

/-- The pixel a written pixel stands for. -/
def writtenPixel (p : Nat × Nat × Nat) : Pixel :=
  { r := BitVec.ofNat 8 p.1, g := BitVec.ofNat 8 p.2.1, b := BitVec.ofNat 8 p.2.2 }

theorem not_pixelFits_iff {p : Nat × Nat × Nat} : ¬ PixelFits p ↔ 255 < p.1 ∨ 255 < p.2.1 ∨ 255 < p.2.2 := by
  unfold PixelFits; omega

theorem asmByte_of_le {n : Nat} (h : n ≤ 255) : asmByte n = some (BitVec.ofNat 8 n) := if_pos (by omega)

theorem asmByte_eq_none_iff {n : Nat} : asmByte n = none ↔ 255 < n :=
  ⟨fun h => by by_contra hn; simp [asmByte_of_le (Nat.not_lt.1 hn)] at h, fun h => if_neg (by omega)⟩

theorem asmPixel_of_fits {p : Nat × Nat × Nat} (h : PixelFits p) : asmPixel p = some (writtenPixel p) := by
  obtain ⟨hr, hg, hb⟩ := h
  rw [asmPixel, asmByte_of_le hr, asmByte_of_le hg, asmByte_of_le hb]
  rfl

theorem asmPixel_of_not_fits {p : Nat × Nat × Nat} (h : ¬ PixelFits p) : asmPixel p = none := by
  unfold asmPixel
  split
  · next hr hg hb =>
    rcases not_pixelFits_iff.1 h with h | h | h <;> simp [asmByte_eq_none_iff.2 h] at hr hg hb
  · rfl

theorem asmPixels_of_fit {ps : List (Nat × Nat × Nat)} (h : ∀ p ∈ ps, PixelFits p) :
    asmPixels ps = some (ps.map writtenPixel) := by
  induction ps with
  | nil => rfl
  | cons p ps ih =>
    obtain ⟨hp, hps⟩ := List.forall_mem_cons.1 h
    rw [asmPixels, asmPixel_of_fits hp, ih hps]
    rfl

theorem asmPixels_of_not_fit {ps : List (Nat × Nat × Nat)} (h : ∃ p ∈ ps, ¬ PixelFits p) : asmPixels ps = none := by
  induction ps with
  | nil => simp at h
  | cons p ps ih =>
    rw [asmPixels]
    by_cases hp : PixelFits p
    · rw [ih (by simpa [hp] using h)]
      cases asmPixel p <;> rfl
    · rw [asmPixel_of_not_fits hp]

/-- A written `SHOW` fits its fields: the count 16 bits, every channel 8. -/
def ShowFits (ps : List (Nat × Nat × Nat)) : Prop := ps.length ≤ 65535 ∧ ∀ p ∈ ps, PixelFits p

theorem not_showFits_iff {ps : List (Nat × Nat × Nat)} :
    ¬ ShowFits ps ↔ 65535 < ps.length ∨ ∃ p ∈ ps, 255 < p.1 ∨ 255 < p.2.1 ∨ 255 < p.2.2 := by
  simp only [← not_pixelFits_iff, ShowFits, not_and_or, Nat.not_le, not_forall, exists_prop]

theorem assemble_show_of_fits {ps : List (Nat × Nat × Nat)} (h : ShowFits ps) :
    (Instr.showPixels (ps.map writtenPixel)).wf = true ∧
    assemble (.showPixels ps) = some (encode (.showPixels (ps.map writtenPixel))) := by
  obtain ⟨hn, hps⟩ := h
  have hwf : (Instr.showPixels (ps.map writtenPixel)).wf = true := decide_eq_true (by rwa [List.length_map])
  exact ⟨hwf, by simp only [assemble, asmPixels_of_fit hps, if_pos hwf]⟩

theorem assemble_show_of_not_fits {ps : List (Nat × Nat × Nat)} (h : ¬ ShowFits ps) : assemble (.showPixels ps) = none := by
  by_cases hps : ∀ p ∈ ps, PixelFits p
  · have hn : ¬ ps.length ≤ 65535 := fun hn => h ⟨hn, hps⟩
    have hwf : ¬ (Instr.showPixels (ps.map writtenPixel)).wf = true := by simpa [Instr.wf] using hn
    simp only [assemble, asmPixels_of_fit hps, if_neg hwf]
  · simp only [assemble, asmPixels_of_not_fit (by simpa using hps)]

/-- Settles O5: a byte operand fits or not, a `SHOW` fits or not, and what fits assembles to an encoding, which decodes. -/
theorem assemblerRefusesExactlyWhatDoesNotFit : Obligations.AssemblerRefusesExactlyWhatDoesNotFit := by
  refine ⟨fun n => Option.map_eq_none_iff.trans asmByte_eq_none_iff, fun n => Option.map_eq_none_iff.trans asmByte_eq_none_iff,
    fun ps => ?_, fun n hn => ⟨_, ?_, decode_encode_alone (i := .init _) rfl⟩,
    fun n hn => ⟨_, ?_, decode_encode_alone (i := .setbrt _) rfl⟩, fun ps ws h => ?_, ⟨rfl, rfl⟩, ⟨rfl, rfl⟩⟩
  · rw [← not_showFits_iff]
    exact ⟨fun h hfits => by simp [(assemble_show_of_fits hfits).2] at h, assemble_show_of_not_fits⟩
  · rw [assemble, asmByte_of_le hn, Option.map_some]
  · rw [assemble, asmByte_of_le hn, Option.map_some]
  · have hfits : ShowFits ps := by
      by_contra hnot
      simp [assemble_show_of_not_fits hnot] at h
    obtain ⟨hwf, hasm⟩ := assemble_show_of_fits hfits
    obtain rfl := Option.some.inj (hasm.symm.trans h)
    exact decode_encode_alone hwf

/-- Settles O4: each line assembles to the encoding of its command, which decodes to it; the illegal words one by one. -/
theorem workedEncodingsDecode : Obligations.WorkedEncodingsDecode := by
  refine ⟨⟨rfl, decode_encode_alone (i := .init 100) rfl⟩, ⟨rfl, decode_encode_alone (i := .init 50) rfl⟩,
    ⟨rfl, decode_encode_alone (i := .init 0) rfl⟩, ⟨rfl, decode_encode_alone (i := .setbrt 100) rfl⟩,
    ⟨rfl, decode_encode_alone (i := .setbrt 150) rfl⟩, ⟨rfl, decode_encode_alone (i := .showPixels []) rfl⟩,
    ⟨rfl, decode_encode_alone (i := .showPixels [⟨255, 0, 0⟩]) rfl⟩,
    ⟨rfl, decode_encode_alone (i := .showPixels [⟨255, 255, 255⟩, ⟨0, 0, 0⟩, ⟨100, 200, 50⟩]) rfl⟩,
    ⟨rfl, decode_encode_alone (i := .showPixels [⟨1, 2, 3⟩, ⟨4, 5, 6⟩, ⟨7, 8, 9⟩, ⟨10, 11, 12⟩]) rfl⟩,
    ?_, ⟨.pixelTopByteNotZero, by decide⟩⟩
  simp only [List.forall_mem_cons]
  exact ⟨⟨.undefinedOpcode, by decide⟩, ⟨.undefinedOpcode, by decide⟩, ⟨.undefinedOpcode, by decide⟩,
    ⟨.reservedNotZero, by decide⟩, ⟨.reservedNotZero, by decide⟩, ⟨.reservedNotZero, by decide⟩, nofun⟩

/-! The step that executes a decoded command (R55, R165). -/

theorem commandStep_of_instr {s : State} {i : Instr} {rest : List Word} (h : decode s.stream = .instr i rest) :
    commandStep s = exec i (consumeTo rest s) := by
  rw [commandStep, h]

theorem encoderStep_of_accepting {s : State} (hp : s.phase = .uninit ∨ s.phase = .idle) : encoderStep s = commandStep s := by
  rcases hp with hp | hp <;> rw [encoderStep, hp]

theorem takeWord_of_accepting {s : State} (w : Word) (hp : s.phase = .uninit ∨ s.phase = .idle) :
    takeWord w s = commandStep { s with cmdPort := s.cmdPort ++ [w] } := by
  rcases hp with hp | hp <;> rw [takeWord, hp]

/-- Whatever the encoder finds presented, in `UNINIT` and `IDLE` it does its command step on it. -/
theorem Presented.step_eq {s : State} {as : List Arrival} {ws : List Word} (h : Presented s as ws)
    (hp : s.phase = .uninit ∨ s.phase = .idle) : step s = commandStep (presented s as ws) := by
  cases h with
  | none ha => exact (step_of_own_move (.inl ⟨ha, rfl⟩)).trans (encoderStep_of_accepting hp)
  | quiet as ha => exact (step_of_own_move (.inr ha)).trans (encoderStep_of_accepting hp)
  | word w as ha => exact (step_eq_arrive ha).trans (takeWord_of_accepting w hp)

theorem Presented.step_of_instr {s : State} {as : List Arrival} {ws rest : List Word} {i : Instr} (h : Presented s as ws)
    (hp : s.phase = .uninit ∨ s.phase = .idle) (hd : decode (s.rx ++ ws) = .instr i rest) :
    step s = exec i { s with rx := [], cmdPort := rest, arrivals := as } :=
  (h.step_eq hp).trans (commandStep_of_instr hd)

/-- Settles O6, by what the encoder finds presented. -/
theorem stepRunsTheDecodedCommand : Obligations.StepRunsTheDecodedCommand := by
  intro s i rest hp
  refine ⟨fun ha hd => ?_, fun as ha hd => (Presented.quiet as ha).step_of_instr hp hd,
    fun w as ha hd => (Presented.word w as ha).step_of_instr hp hd⟩
  rw [(Presented.none ha).step_of_instr hp hd, ← ha]

end Sys2Proof.Machine
end

section
/-! PROOFS. The datapath (40_datapath.md): the domain and the laws of `Scale` (R70, R71, R81), the groups of a channel and of a
scaled word (R72, R74), the symbols (R73, R75, R76), and the bytes of a fill that a pixel decides (R80). -/

namespace Sys2Proof.Machine

/-! `Scale` (R70, R71, R81). -/

/-- Settles O38. -/
theorem onlyUsableBrightnessesScale : Obligations.OnlyUsableBrightnessesScale := by
  refine fun v => ⟨usableBrightness_eq_none.symm, fun hle => ?_⟩
  obtain ⟨b, hb⟩ := usableBrightness_of_le hle
  exact ⟨b, hb, (usableBrightness_eq_some.1 hb).symm⟩

/-- Brightness 100 is the identity (R71 (b)). -/
@[simp] theorem scale_full (c : Byte) : scale c 100 = c :=
  BitVec.eq_of_toNat_eq ((scale_toNat c 100).trans (Nat.mul_div_cancel c.toNat (by decide)))

/-- Brightness 0 is black (R71 (c)). -/
@[simp] theorem scale_dark (c : Byte) : scale c 0 = 0 :=
  BitVec.eq_of_toNat_eq (by simp)

theorem scale_mono {c c' : Byte} {b b' : Brightness} (hc : c.toNat ≤ c'.toNat) (hb : b.val ≤ b'.val) :
    (scale c b).toNat ≤ (scale c' b').toNat := by
  rw [scale_toNat, scale_toNat]
  exact Nat.div_le_div_right (Nat.mul_le_mul hc hb)

theorem scale_eq_zero_iff (c : Byte) (b : Brightness) : scale c b = 0 ↔ c.toNat * b.val < 100 := by
  rw [← BitVec.toNat_inj, scale_toNat]
  exact Nat.div_eq_zero_iff_lt (by decide)

/-! The three channels of a scaled word (R74). -/

/-- A byte of a scaled word as arithmetic. -/
theorem scaleGRB_byte_toNat (p : Pixel) (b : Brightness) (n : Nat) :
    ((scaleGRB p b).extractLsb' n 8).toNat =
      ((scale p.g b).toNat * 65536 + (scale p.r b).toNat * 256 + (scale p.b b).toNat) / 2 ^ n % 256 := by
  rw [BitVec.extractLsb'_toNat, Nat.shiftRight_eq_div_pow, scaleGRB_toNat]

theorem scaleGRB_green (p : Pixel) (b : Brightness) : (scaleGRB p b).extractLsb' 16 8 = scale p.g b := by
  apply BitVec.eq_of_toNat_eq
  rw [scaleGRB_byte_toNat]
  have hg := (scale p.g b).isLt
  have hr := (scale p.r b).isLt
  have hb := (scale p.b b).isLt
  omega

theorem scaleGRB_red (p : Pixel) (b : Brightness) : (scaleGRB p b).extractLsb' 8 8 = scale p.r b := by
  apply BitVec.eq_of_toNat_eq
  rw [scaleGRB_byte_toNat]
  have hr := (scale p.r b).isLt
  have hb := (scale p.b b).isLt
  omega

theorem scaleGRB_blue (p : Pixel) (b : Brightness) : (scaleGRB p b).extractLsb' 0 8 = scale p.b b := by
  apply BitVec.eq_of_toNat_eq
  rw [scaleGRB_byte_toNat]
  have hb := (scale p.b b).isLt
  omega

/-- Settles O37: the laws are those of the quotient `scale_toNat`; a byte of the scaled word is its own channel, scaled. -/
theorem scaleFollowsItsLaws : Obligations.ScaleFollowsItsLaws := by
  refine ⟨fun c b => ⟨scale_toNat c b, ?_⟩, fun c => ⟨scale_full c, scale_dark c⟩, scale_zero, fun c c' b b' => scale_mono,
    scale_eq_zero_iff, by decide, fun p q b h => ?_, fun p q b h => ?_, fun p q b h => ?_, by decide⟩
  · rw [scale_toNat]; exact scaleQuotient_le c b
  · rw [scaleGRB_red, scaleGRB_red, h]
  · rw [scaleGRB_green, scaleGRB_green, h]
  · rw [scaleGRB_blue, scaleGRB_blue, h]

/-! The groups of the slots (R72, R74). -/

/-- Slot `4*n + j` of a scaled word is group `j` of its byte `n` from the top. -/
theorem slotOfScaled_eq_group (sc : BitVec 24) {n : Nat} (hn : n < 3) (j : Fin 4) :
    slotOfScaled sc (4 * n + j) = group (sc.extractLsb' (16 - 8 * n) 8) j := by
  have hj := j.isLt
  ext x hx
  have hpos : 22 - 2 * (4 * n + j) + x = 16 - 8 * n + (6 - 2 * j + x) := by omega
  have hbyte : 6 - 2 * j + x < 8 := by omega
  simp [slotOfScaled, group, hpos, hbyte, BitVec.getElem_extractLsb']

theorem slotGroup_green (p : Pixel) (b : Brightness) (j : Fin 4) : slotGroup p b j = group (scale p.g b) j := by
  simpa [scaleGRB_green, slotGroup] using slotOfScaled_eq_group (scaleGRB p b) (n := 0) (by decide) j

theorem slotGroup_red (p : Pixel) (b : Brightness) (j : Fin 4) : slotGroup p b (4 + j) = group (scale p.r b) j := by
  simpa [scaleGRB_red, slotGroup] using slotOfScaled_eq_group (scaleGRB p b) (n := 1) (by decide) j

theorem slotGroup_blue (p : Pixel) (b : Brightness) (j : Fin 4) : slotGroup p b (8 + j) = group (scale p.b b) j := by
  simpa [scaleGRB_blue, slotGroup] using slotOfScaled_eq_group (scaleGRB p b) (n := 2) (by decide) j

/-- Settles O40. -/
theorem slotsAreGreenRedBlue : Obligations.SlotsAreGreenRedBlue := fun p b =>
  ⟨scaleGRB_green p b, scaleGRB_red p b, scaleGRB_blue p b, fun k _ => slotOfScaled_toNat (scaleGRB p b) k,
    fun j => ⟨slotGroup_green p b j, slotGroup_red p b j, slotGroup_blue p b j⟩⟩

/-- The four groups of a channel as numbers (R72). -/
theorem groups_toNat (s : Byte) :
    (group s 0).toNat = s.toNat / 64 % 4 ∧ (group s 1).toNat = s.toNat / 16 % 4 ∧
    (group s 2).toNat = s.toNat / 4 % 4 ∧ (group s 3).toNat = s.toNat % 4 :=
  ⟨group_toNat s 0, group_toNat s 1, group_toNat s 2, by simpa using group_toNat s 3⟩

/-- The four groups of a channel make it up, the first the most significant (R72). -/
theorem byte_eq_groups (s : Byte) :
    s.toNat = 64 * (group s 0).toNat + 16 * (group s 1).toNat + 4 * (group s 2).toNat + (group s 3).toNat := by
  obtain ⟨h0, h1, h2, h3⟩ := groups_toNat s
  have hs := s.isLt
  omega

/-- Settles O39: four successive slots are the four groups of one channel. -/
theorem groupsMakeUpTheChannel : Obligations.GroupsMakeUpTheChannel := by
  refine ⟨fun p b => ⟨?_, ?_, ?_⟩, fun s => ?_⟩
  · exact List.map_congr_left (l := [0, 1, 2, 3]) fun j _ => slotGroup_green p b j
  · exact List.map_congr_left (l := [0, 1, 2, 3]) fun j _ => slotGroup_red p b j
  · exact List.map_congr_left (l := [0, 1, 2, 3]) fun j _ => slotGroup_blue p b j
  · obtain ⟨h0, h1, h2, h3⟩ := groups_toNat s
    exact ⟨h0, h1, h2, h3, byte_eq_groups s⟩

/-! The symbols of a pixel (R73, R75, R76). -/

/-- The symbols of a scaled channel's groups, in emission order (R72, R73). -/
def channelSymbols (c : Config) (s : Byte) : List Symbol := (List.finRange 4).map fun j => lookup c (group s j)

theorem channelSymbols_zero (c : Config) : channelSymbols c 0 = List.replicate 4 c.sym0 := rfl

theorem channelSymbols_max (c : Config) : channelSymbols c 255 = List.replicate 4 c.sym3 := rfl

/-- An encoded pixel is the symbols of its scaled green, red and blue (R75). -/
theorem encodePixel_eq_channels (c : Config) (p : Pixel) (b : Brightness) :
    encodePixel c p b =
      channelSymbols c (scale p.g b) ++ channelSymbols c (scale p.r b) ++ channelSymbols c (scale p.b b) := by
  simp only [channelSymbols, ← slotGroup_green, ← slotGroup_red, ← slotGroup_blue]
  rfl

/-- A pixel whose channels all scale to 0 is an off LED (R76). -/
theorem encodePixel_of_scaled_black {p : Pixel} {b : Brightness} (c : Config) (hg : scale p.g b = 0) (hr : scale p.r b = 0)
    (hb : scale p.b b = 0) : encodePixel c p b = offLed c := by
  rw [encodePixel_eq_channels, hg, hr, hb, channelSymbols_zero]
  rfl

theorem encodePixel_black (c : Config) (b : Brightness) : encodePixel c ⟨0, 0, 0⟩ b = offLed c :=
  encodePixel_of_scaled_black c (scale_zero b) (scale_zero b) (scale_zero b)

/-- The symbols of a fill are the same with the black of an unlit LED written out (R76). -/
theorem fillSymbols_append_black {c : Config} {ps : List Pixel} (b : Brightness) (h : ps.length < c.ledCount) :
    fillSymbols c b (ps ++ [⟨0, 0, 0⟩]) = fillSymbols c b ps := by
  have hcount : 12 * (c.ledCount - ps.length) = 12 + 12 * (c.ledCount - (ps.length + 1)) := by omega
  rw [fillSymbols, List.flatMap_append, List.flatMap_singleton, encodePixel_black, List.length_append, List.length_singleton,
    List.append_assoc, offLed, ← List.replicate_add, ← hcount, fillSymbols]

theorem filledSymbol_of_lit (c : Config) (b : Brightness) {ps : List Pixel} {i : Nat} {p : Pixel} (k : Nat)
    (h : ps[i]? = some p) : filledSymbol c b ps i k = lookup c (slotGroup p b k) := by
  simp [filledSymbol, h]

theorem filledSymbol_of_unlit (c : Config) (b : Brightness) {ps : List Pixel} {i : Nat} (k : Nat) (h : ps.length ≤ i) :
    filledSymbol c b ps i k = offSymbol c := by
  simp [filledSymbol, h]

/-- Settles O41. -/
theorem blackPixelsEncodeAsOff : Obligations.BlackPixelsEncodeAsOff := by
  refine ⟨fun c => ⟨rfl, rfl, rfl, rfl, rfl⟩,
    fun c b ps i k => ⟨fun p => filledSymbol_of_lit c b k, filledSymbol_of_unlit c b k⟩, fun c => ?_,
    fun c p b k hk => ⟨encodePixel_getElem? c p b hk, encodePixel_length c p b⟩, encodePixel_black,
    fun c p => encodePixel_of_scaled_black c (scale_dark _) (scale_dark _) (scale_dark _), fun c => rfl,
    fun c b ps m h => ?_⟩
  · simp only [encodePixel_eq_channels, scale_full, channelSymbols_zero, channelSymbols_max]
  · rw [fill_eq_storeSlots, fill_eq_storeSlots, fillSymbols_append_black b h]

/-! The bytes of one LED (R80). -/

theorem filledSymbol_congr (c : Config) (b : Brightness) {ps qs : List Pixel} {i : Nat} (k : Nat) (h : ps[i]? = qs[i]?) :
    filledSymbol c b ps i k = filledSymbol c b qs i k := by
  simp [filledSymbol, h]

/-- Settles O36: each byte of LED `i` is of a slot `j` with `j / 12 = i`, and the symbol there is of pixel `i`. -/
theorem ledBytesDependOnItsOwnPixelOnly : Obligations.LedBytesDependOnItsOwnPixelOnly := by
  intro c b ps qs m i a hps hqs hi hpix hlo hhi
  obtain ⟨j, hj⟩ : ∃ j, a = 2 * j ∨ a = 2 * j + 1 := ⟨a / 2, by omega⟩
  obtain rfl : j / 12 = i := by omega
  have hslot : j < slotCount c := by rw [slotCount]; omega
  have hsym := filledSymbol_congr c b (j % 12) hpix
  rcases hj with rfl | rfl
  · rw [fill_read_even m hps hslot, fill_read_even m hqs hslot, hsym]
  · rw [fill_read_odd m hps hslot, fill_read_odd m hqs hslot, hsym]

end Sys2Proof.Machine
end

section
/-! PROOFS. `INIT` (41_init.md R90, R91): the buffer its clear and blank fill leave, and the command at the atomic level. -/

namespace Sys2Proof.Machine

/-! The buffer after the clear and the blank fill. -/

/-- The blank fill leaves the off symbol in every slot; under `LOW8` the odd byte is the 0x00 of the clear before it (R91). -/
theorem slotHolds_blankFill {c : Config} (b : Brightness) (m : Memory) {j : Nat} (hj : j < slotCount c) :
    SlotHolds c (fill c b [] (bufClear c m)) (2 * j) c.sym0 :=
  slotHolds_fill (oddBytesClear_bufClear c m) (Nat.zero_le _) hj

theorem blankFill_read_beyond {c : Config} (b : Brightness) (m : Memory) {a : Nat} (ha : bufLen c ≤ a) :
    (fill c b [] (bufClear c m)).read a = m.read a := by
  rw [fill_read_beyond _ (Nat.zero_le _) ha, bufClear_read, if_neg (Nat.not_lt.2 ha)]

/-- Every byte of the buffer has a value after the blank fill, whatever the buffer held before. -/
theorem blankFill_read_isSome {c : Config} (b : Brightness) (m : Memory) {a : Nat} (ha : a < bufLen c) :
    ∃ v, (fill c b [] (bufClear c m)).read a = some v := by
  have hclear := oddBytesClear_bufClear c m
  obtain ⟨v, hv, _⟩ := fill_read_agree (b := b) (ps := []) hclear hclear (Nat.zero_le _) ha
  exact ⟨v, hv⟩

/-! The command. -/

theorem exec_init_of_tooBright {b : Byte} (s : State) (hb : 100 < b.toNat) :
    exec (.init b) s = .next (raiseFault .brightnessRange s) :=
  execInit_of_none (usableBrightness_eq_none.2 hb)

/-- The state from which `INIT b` runs its blank fill: the brightness written, the buffer cleared. -/
def initCleared (b : Byte) (s : State) : State := { s with brt := b, buf := bufClear s.cfg s.buf }

/-- `INIT b` at the command level is a whole fill of no pixels in the cleared buffer (R90). -/
theorem exec_init_of_command {b : Byte} {u : Brightness} {s : State} (hb : usableBrightness b = some u)
    (hlevel : s.cfg.level = .command) :
    exec (.init b) s = .next (runFill u [] (startFill [] (initCleared b s))) :=
  (execInit_of_usable hb).trans (congrArg _ (showBody_of_command hlevel))

/-- A byte of the buffer that has a value is handed over as it is (R37, R143). -/
theorem frame_getElem?_eq_read {s : State} {a : Nat} (ha : a < bufLen s.cfg) (h : ∃ v, s.buf.read a = some v) :
    s.frame[a]? = s.buf.read a := by
  obtain ⟨v, hv⟩ := h
  rw [State.frame_getElem? ha hv, hv]

/-- A `TxDone` that comes next in `TX` ends the wait and the command (R110, R145). -/
theorem step_txDone_of_tx {s : State} (as : List Arrival) (hp : s.phase = .tx) :
    step { s with arrivals := .txDone :: as } =
      .next { s with arrivals := as, phase := .idle, outputs := s.outputs ++ [.resp .success] } := by
  have htx : ({ s with arrivals := as } : State).phase = .tx := hp
  rw [step_eq_arrive rfl, arrive, takeTxDone_of_tx htx]
  rfl

/-- Settles O26: at the command level `INIT b` faults, or is a blank fill of the cleared buffer and its hand-over; neither
depends on which of `UNINIT` and `IDLE` the block is in. -/
theorem initTurnsEveryLedOff : Obligations.InitTurnsEveryLedOff := by
  intro s b _ hlevel
  refine ⟨exec_init_of_tooBright s, fun hb => ?_⟩
  obtain ⟨u, hu⟩ := usableBrightness_of_le hb
  refine ⟨_, exec_init_of_command hu hlevel, rfl, rfl, fun _ => slotHolds_blankFill u s.buf,
    fun _ => blankFill_read_beyond u s.buf, ⟨_, runFill_outputs .., State.frame_length _, fun a ha => ?_⟩,
    rfl, rfl, rfl, rfl, rfl, rfl, fun as => step_txDone_of_tx as rfl⟩
  exact frame_getElem?_eq_read ha (blankFill_read_isSome u s.buf ha)

end Sys2Proof.Machine
end

section
/-! PROOFS. `SHOW` (42_show.md): the command at both levels of description (R100, R109), the controller's steps (R107, R108)
and their agreement with the atomic command (R112), the transitions of the phase (R106), the end of a command in `TX` (R110). -/

namespace Sys2Proof.Machine

/-! The wait in `TX` and its end (R110, R146). -/

theorem wordsOf_cons (a : Arrival) (as : List Arrival) : wordsOf (a :: as) = wordsOf [a] ++ wordsOf as := by
  cases a <;> rfl

/-- In `TX` a move that is no `Reset` and no `TxDone` does nothing but leave its word on the port (R110, R165). -/
theorem step_waits_of_tx {s : State} {a : Arrival} {as : List Arrival} (hp : s.phase = .tx) (ha : s.arrivals = a :: as)
    (hno : a ≠ .reset ∧ a ≠ .txDone) :
    step s = .next { s with arrivals := as, cmdPort := s.cmdPort ++ wordsOf [a] } := by
  obtain ⟨hreset, hdone⟩ := hno
  rw [step_eq_arrive ha]
  cases a with
  | reset => exact absurd rfl hreset
  | txDone => exact absurd rfl hdone
  | word w => simp [arrive, takeWord, hp, wordsOf]
  | quiet => simp [arrive, encoderStep, hp, wordsOf]

/-- So do any number of such moves (R146). -/
theorem run_waits_of_tx {s : State} {pre post : List Arrival} (hp : s.phase = .tx) (ha : s.arrivals = pre ++ post)
    (hno : NoAnswer pre) :
    core.run pre.length s = .next { s with arrivals := post, cmdPort := s.cmdPort ++ wordsOf pre } := by
  induction pre generalizing s with
  | nil =>
    have hpost : s.arrivals = post := ha
    rw [List.length_nil, run_zero, ← hpost, wordsOf, List.append_nil]
  | cons a pre ih =>
    obtain ⟨hfirst, hrest⟩ := List.forall_mem_cons.1 hno
    have hstep := step_waits_of_tx (as := pre ++ post) hp ha hfirst
    rw [List.length_cons, run_of_next hstep, wordsOf_cons a pre, ← List.append_assoc]
    exact ih hp rfl hrest

/-- Settles O18: the moves before the `TxDone` are waited out, and the step on it ends the command. -/
theorem answeredTransmitCompletesTheCommand : Obligations.AnsweredTransmitCompletesTheCommand := by
  intro s pre post hp ha hno
  have hdone := step_txDone_of_tx (s := { s with cmdPort := s.cmdPort ++ wordsOf pre }) post hp
  rw [run_add pre.length 1 (run_waits_of_tx hp ha hno), run_of_next hdone, run_zero]
  exact ⟨_, rfl, rfl, rfl, rfl, rfl, rfl, rfl, rfl⟩

/-! The start of a fill at the slot level (R109). -/

/-- Settles O27: the buffer it leaves is the clear's. -/
theorem initAtSlotLevelClearsAndStarts : Obligations.InitAtSlotLevelClearsAndStarts := by
  intro s b _ hlevel hb
  obtain ⟨u, hu⟩ := usableBrightness_of_le hb
  have hshow : showBody u [] (initCleared b s) = startFill [] (initCleared b s) := showBody_of_slot hlevel
  exact ⟨bufClear s.cfg s.buf, (execInit_of_usable hu).trans (congrArg _ hshow),
    fun a ha => (bufClear_read ..).trans (if_pos ha), fun a ha => (bufClear_read ..).trans (if_neg (Nat.not_lt.2 ha))⟩

theorem exec_show_of_slot {ps : List Pixel} {s : State} (hp : s.phase = .idle) (hlevel : s.cfg.level = .slot)
    (hn : ps.length ≤ s.cfg.ledCount) (hb : s.brt.toNat ≤ 100) : exec (.showPixels ps) s = .next (startFill ps s) := by
  obtain ⟨b, hb⟩ := usableBrightness_of_le hb
  exact (execShow_of_fill (by simp [hp]) hn hb).trans (congrArg _ (showBody_of_slot hlevel))

/-- Settles O29: the start step is `startFill`, by whether there is a pixel. -/
theorem showAtSlotLevelSetsTheLatches : Obligations.ShowAtSlotLevelSetsTheLatches := by
  intro s ps hp hlevel hn hb
  rw [exec_show_of_slot hp hlevel hn hb]
  cases ps with
  | nil => exact ⟨nofun, fun _ => rfl⟩
  | cons p ps => exact ⟨fun _ => rfl, nofun⟩

/-! The atomic command (R100). -/

theorem exec_show_of_command {ps : List Pixel} {b : Brightness} {s : State} (hp : s.phase = .idle)
    (hlevel : s.cfg.level = .command) (hn : ps.length ≤ s.cfg.ledCount) (hb : usableBrightness s.brt = some b) :
    exec (.showPixels ps) s = .next (runFill b ps (startFill ps s)) :=
  (execShow_of_fill (by simp [hp]) hn hb).trans (congrArg _ (showBody_of_command hlevel))

/-- The two bytes of slot `k` of LED `i` after a fill (R103). -/
theorem fill_read_ledSlot {c : Config} {b : Brightness} {ps : List Pixel} (m : Memory) {i k : Nat}
    (hn : ps.length ≤ c.ledCount) (hi : i < c.ledCount) (hk : k < 12) :
    (fill c b ps m).read (24 * i + 2 * k) = some (lowByte (filledSymbol c b ps i k)) ∧
    (fill c b ps m).read (24 * i + 2 * k + 1) =
      if c.storeMode = .full16 then some (highByte (filledSymbol c b ps i k)) else m.read (24 * i + 2 * k + 1) := by
  have hj : 12 * i + k < slotCount c := by rw [slotCount]; omega
  have heven := fill_read_even (b := b) m hn hj
  have hodd := fill_read_odd (b := b) m hn hj
  rw [show (12 * i + k) / 12 = i by omega, show (12 * i + k) % 12 = k by omega,
    show 2 * (12 * i + k) = 24 * i + 2 * k by omega] at heven hodd
  exact ⟨heven, hodd⟩

/-- Settles O28: the faults in R138's order, and else the whole fill `runFill`, whose bytes are the fill's. -/
theorem showFillsTheBufferAndHandsItOver : Obligations.ShowFillsTheBufferAndHandsItOver := by
  have hinit {s : State} (hp : s.phase = .idle) : s.phase ≠ .uninit := by simp [hp]
  refine ⟨fun s ps => execShow_of_uninit, fun s ps hp => execShow_of_tooMany (hinit hp),
    fun s ps hp hn hb => execShow_of_tooBright (hinit hp) hn (usableBrightness_eq_none.2 hb),
    fun s ps b hp hlevel hn hb => ?_⟩
  refine ⟨_, exec_show_of_command hp hlevel hn (usableBrightness_eq_some.2 hb), rfl, fun i k hi hk => ?_,
    fun a ha => fill_read_beyond s.buf hn ha,
    ⟨_, runFill_outputs .., State.frame_length _, fun a x ha hx => State.frame_getElem? ha hx⟩,
    rfl, rfl, rfl, rfl, rfl, rfl, rfl, fun as => step_txDone_of_tx as rfl⟩
  obtain ⟨heven, hodd⟩ := fill_read_ledSlot (b := b) s.buf hn hi hk
  exact ⟨heven, fun hmode => hodd.trans (if_pos hmode), fun hmode => hodd.trans (if_neg (by simp [hmode]))⟩

/-- A fill repeated reads as the fill did once (R104 (a)): under `LOW8` an odd byte is what it was before both. -/
theorem fill_read_again {c : Config} {b : Brightness} {ps : List Pixel} (m : Memory) (hn : ps.length ≤ c.ledCount) (a : Nat) :
    (fill c b ps (fill c b ps m)).read a = (fill c b ps m).read a := by
  by_cases ha : a < bufLen c
  · obtain ⟨j, hj⟩ : ∃ j, a = 2 * j ∨ a = 2 * j + 1 := ⟨a / 2, by omega⟩
    have hcount : j < slotCount c := by rw [bufLen] at ha; rw [slotCount]; omega
    rcases hj with rfl | rfl
    · rw [fill_read_even _ hn hcount, fill_read_even _ hn hcount]
    · rw [fill_read_odd _ hn hcount, fill_read_odd _ hn hcount]
      split <;> rfl
  · exact fill_read_beyond _ hn (Nat.not_lt.1 ha)

/-- Settles O34: the second fill is the first's, in the buffer the first left. -/
theorem showIsIdempotent : Obligations.ShowIsIdempotent := by
  intro s t u v ps as hp hlevel ht htx hu hv
  obtain ⟨hn, b, hb, rfl⟩ := exec_show_handsOver hp hlevel ht htx
  obtain ⟨hcfg, hphase, hbrt, hbuf, hresets⟩ : u.cfg = s.cfg ∧ u.phase = .idle ∧ u.brt = s.brt ∧
      u.buf = fill s.cfg b ps s.buf ∧ u.resets = s.resets := by
    cases (step_txDone_of_tx as htx).symm.trans hu
    exact ⟨rfl, rfl, rfl, rfl, rfl⟩
  cases (exec_show_of_command hphase (hcfg ▸ hlevel) (hcfg ▸ hn) (hbrt ▸ hb)).symm.trans hv
  have hread (a : Nat) : (fill u.cfg b ps u.buf).read a = (fill s.cfg b ps s.buf).read a := by
    rw [hcfg, hbuf, fill_read_again s.buf hn]
  have hframe : (runFill b ps (startFill ps u)).frame = (runFill b ps (startFill ps s)).frame :=
    State.frame_congr_read hcfg fun a _ => ⟨hread a, .inl hresets⟩
  exact ⟨hframe ▸ runFill_outputs .., hread⟩

/-! An `ENC` step (R107). -/

/-- The state in which an `ENC` step advances: `SC` the scaled word of the pixel, the symbol of the slot's group stored (R107
stages S1 to S4). -/
def litStored (p : Pixel) (b : Brightness) (s : State) : State :=
  storeAtWp (lookup s.cfg (slotGroup p b s.k)) { s with sc := scaleGRB p b }

theorem encStep_of_pixel {s : State} {p : Pixel} {b : Brightness} (hready : encReady s = true) (hpix : s.pq[s.i]? = some p)
    (hb : usableBrightness s.bl = some b) (hsc : 0 < s.k → s.sc = scaleGRB p b) :
    encStep s = .next (encAdvance (litStored p b s)) := by
  have hscaled : encScaled s = some (scaleGRB p b) := by
    by_cases hk : s.k = 0
    · simp [encScaled, hk, hpix, hb]
    · simp [encScaled, hk, hsc (Nat.pos_of_ne_zero hk)]
  rw [encStep, if_pos hready, hscaled]
  rfl

/-- The advance of `K`, `I` and the phase, and the hand-over, by the slot and the pixel just written. -/
theorem encAdvance_moves (s : State) :
    (s.k < 11 → (encAdvance s).k = s.k + 1 ∧ (encAdvance s).i = s.i ∧ (encAdvance s).phase = s.phase ∧
      (encAdvance s).outputs = s.outputs) ∧
    (s.k = 11 → (encAdvance s).k = 0 ∧ (encAdvance s).i = s.i + 1 ∧
      (s.i + 1 < s.npix → (encAdvance s).phase = s.phase ∧ (encAdvance s).outputs = s.outputs) ∧
      (s.i + 1 = s.npix → s.npix < s.cfg.ledCount → (encAdvance s).phase = .off ∧ (encAdvance s).outputs = s.outputs) ∧
      (s.i + 1 = s.npix → s.npix = s.cfg.ledCount →
        (encAdvance s).phase = .tx ∧ (encAdvance s).outputs = s.outputs ++ [.txStart (encAdvance s).frame])) := by
  rcases encAdvance_cases s with ⟨hk, e⟩ | ⟨hk, hlast, hroom, e⟩ | ⟨hk, hlast, hfull, e⟩ | ⟨hk, hnext, e⟩ <;> rw [e]
  · exact ⟨fun _ => ⟨rfl, rfl, rfl, rfl⟩, fun hk' => absurd hk' hk.ne⟩
  · exact ⟨fun hk' => absurd hk' hk,
      fun _ => ⟨rfl, rfl, fun hi => absurd hlast hi.ne, fun _ _ => ⟨rfl, rfl⟩, fun _ hn => absurd hn hroom.ne⟩⟩
  · exact ⟨fun hk' => absurd hk' hk,
      fun _ => ⟨rfl, rfl, fun hi => absurd hlast hi.ne, fun _ hn => absurd hn hfull, fun _ _ => ⟨rfl, rfl⟩⟩⟩
  · exact ⟨fun hk' => absurd hk' hk,
      fun _ => ⟨rfl, rfl, fun _ => ⟨rfl, rfl⟩, fun hi => absurd hi hnext, fun hi => absurd hi hnext⟩⟩

/-- Settles O30: the store by `encStep_of_pixel`, then the advance by the slot and the pixel just written. -/
theorem encStepWritesOneLitSlot : Obligations.EncStepWritesOneLitSlot := by
  intro s as p b hp ha hi hk hwp hlen hn hpix hb hsc
  have hready : encReady { s with arrivals := as } = true := (encReady_iff _).2 ⟨hi, hk, hwp, hlen, hn⟩
  have hstep : step s = encStep { s with arrivals := as } := by rw [step_of_own_move ha, encoderStep, hp]
  have hmoves := encAdvance_moves (litStored p b { s with arrivals := as })
  rw [show (litStored p b { s with arrivals := as }).phase = .enc from hp] at hmoves
  exact ⟨_, hstep.trans (encStep_of_pixel hready hpix (usableBrightness_eq_some.2 hb) hsc), encAdvance_sc _, encAdvance_buf _,
    encAdvance_wp _, encAdvance_brt _, encAdvance_err _, encAdvance_bl _, encAdvance_npix _, encAdvance_pq _, encAdvance_cfg _,
    encAdvance_rx _, encAdvance_cmdPort _, encAdvance_arrivals _, encAdvance_resets _, hmoves⟩

/-! An `OFF` step (R108). -/

/-- Settles O31: the store, and the hand-over when it was the last. -/
theorem offStepWritesOneOffSlot : Obligations.OffStepWritesOneOffSlot := by
  intro s as hp ha heven hlo hhi
  have hready : offReady { s with arrivals := as } = true := (offReady_iff _).2 ⟨heven, hlo, hhi⟩
  have hstep : step s = .next (offAdvance (storeAtWp (offSymbol s.cfg) { s with arrivals := as })) := by
    rw [step_of_own_move ha, encoderStep, hp]
    exact if_pos hready
  rw [hstep]
  exact ⟨fun hmore => congrArg _ (if_neg hmore), fun hlast => ⟨_, congrArg _ (if_pos hlast), rfl⟩⟩

/-! The slot steps and the atomic command (R112). -/

/-- The last slot stored and the frame handed over is the state the atomic fill leaves. -/
theorem fillNext_all_eq_runFill {b : Brightness} {ps : List Pixel} {s : State} (hn : ps.length ≤ s.cfg.ledCount) :
    fillNext b ps s (12 * s.cfg.ledCount) = runFill b ps (startFill ps s) := by
  have hall : (fillSymbols s.cfg b ps).take (12 * s.cfg.ledCount) = fillSymbols s.cfg b ps :=
    List.take_of_length_le (fillSymbols_length hn).le
  have hsc : ps.take ((12 * s.cfg.ledCount + 11) / 12) = ps := List.take_of_length_le (by omega)
  have hwp : 2 * (12 * s.cfg.ledCount) = bufLen s.cfg := by rw [bufLen]; omega
  rw [fillNext_all hn, storedTo, hall, ← fill_eq_storeSlots, hsc, hwp]
  rfl

/-- Settles O32: all but the last step by `run_startFill`, the last by `step_fillAfter`. -/
theorem slotStepsAgreeWithTheAtomicCommand : Obligations.SlotStepsAgreeWithTheAtomicCommand := by
  intro s ps b ha hN hn hb
  refine ⟨?_, fun as => step_txDone_of_tx as rfl⟩
  obtain ⟨j, hj⟩ : ∃ j, 12 * s.cfg.ledCount = j + 1 := ⟨12 * s.cfg.ledCount - 1, by omega⟩
  have hlt : j < 12 * s.cfg.ledCount := by omega
  have hb' := usableBrightness_eq_some.2 hb
  rw [← fillNext_all_eq_runFill hn, hj, run_add j 1 (run_startFill ha hn hb' hlt), run_of_next (step_fillAfter ha hn hb' hlt),
    run_zero]

/-! The transitions of the phase (R106). -/

/-- A command at the slot level moves the phase only by starting a fill. -/
theorem exec_phase_of_slot {i : Instr} {s t : State} (hlevel : s.cfg.level = .slot) (h : exec i s = .next t) :
    t.phase = s.phase ∨ (∃ b, i = .init b ∧ b.toNat ≤ 100 ∧ t.phase = .off) ∨
    ∃ ps, i = .showPixels ps ∧ s.phase ≠ .uninit ∧ ps.length ≤ s.cfg.ledCount ∧ s.brt.toNat ≤ 100 ∧
      t.phase = if ps = [] then .off else .enc := by
  have hle {v : Byte} {u : Brightness} (hu : usableBrightness v = some u) : v.toNat ≤ 100 := by
    rw [usableBrightness_eq_some.1 hu]; omega
  rcases exec_cases h with ⟨c, _, rfl⟩ | ⟨v, _, _, rfl⟩ | ⟨b, u, rfl, hu, rfl⟩ | ⟨ps, b, rfl, hp, hn, hb, rfl⟩
  · exact .inl rfl
  · exact .inl rfl
  · exact .inr (.inl ⟨b, rfl, hle hu, congrArg State.phase (showBody_of_slot (s := initCleared b s) hlevel)⟩)
  · exact .inr (.inr ⟨ps, rfl, hp, hn, hle hb, congrArg State.phase (showBody_of_slot hlevel)⟩)

/-- An `ENC` step moves the phase after slot 11 of the last pixel only (R107). -/
theorem encStep_phase {s t : State} (h : encStep s = .next t) :
    t.phase = s.phase ∨ (s.k = 11 ∧ s.i + 1 = s.npix ∧ s.npix < s.cfg.ledCount ∧ t.phase = .off) ∨
    (s.k = 11 ∧ s.i + 1 = s.npix ∧ s.npix = s.cfg.ledCount ∧ t.phase = .tx ∧
      t.outputs = s.outputs ++ [.txStart t.frame]) := by
  obtain ⟨hready, sc, _, rfl⟩ := encStep_cases h
  obtain ⟨_, hk, _, _, hn⟩ := (encReady_iff s).1 hready
  rcases encAdvance_cases (storeAtWp (lookup s.cfg (slotOfScaled sc s.k)) { s with sc := sc }) with
    ⟨_, e⟩ | ⟨hk', hlast, hroom, e⟩ | ⟨hk', hlast, hfull, e⟩ | ⟨_, _, e⟩ <;> rw [e]
  · exact .inl rfl
  · exact .inr (.inl ⟨hk.antisymm (Nat.not_lt.1 hk'), hlast, hroom, rfl⟩)
  · exact .inr (.inr ⟨hk.antisymm (Nat.not_lt.1 hk'), hlast, hn.antisymm (Nat.not_lt.1 hfull), rfl, rfl⟩)
  · exact .inl rfl

/-- An `OFF` step moves the phase after the last slot only (R108). -/
theorem offStep_phase {s t : State} (h : offStep s = .next t) :
    t.phase = s.phase ∨
    (s.wp + 2 = 24 * s.cfg.ledCount ∧ t.phase = .tx ∧ t.outputs = s.outputs ++ [.txStart t.frame]) := by
  obtain ⟨_, rfl⟩ := offStep_cases h
  rcases offAdvance_cases (storeAtWp (offSymbol s.cfg) s) with ⟨hwp, e⟩ | ⟨_, e⟩ <;> rw [e]
  · exact .inr ⟨hwp, rfl, rfl⟩
  · exact .inl rfl

/-- Settles O51, case by case over what a step can be: each that moves the phase is a row of the table. -/
theorem phasesMoveOnlyAsTheTableSays : Obligations.PhasesMoveOnlyAsTheTableSays := by
  intro s t hlevel _ h hmove
  cases step_cases h with
  | reset as ha => exact .inl ⟨by simp [ha], rfl⟩
  | txDone as ha =>
    by_cases hp : s.phase = .tx
    · iterate 7 right
      rw [takeTxDone_of_tx (s := { s with arrivals := as }) hp]
      exact ⟨hp, rfl, by simp [ha], rfl⟩
    · rw [takeTxDone_of_ne_tx (s := { s with arrivals := as }) hp] at hmove
      exact absurd rfl hmove
  | held as ws _ _ => exact absurd rfl hmove
  | command as ws hq hp i rest hd _ ht =>
    rw [hq.wordsSeen_eq, hd]
    rcases exec_phase_of_slot (s := consumeTo rest (presented s as ws)) hlevel ht with
      e | ⟨b, rfl, hb, e⟩ | ⟨ps, rfl, hinit, hn, hb, e⟩
    · exact absurd e hmove
    · exact .inr (.inl ⟨hp, e, b, rest, rfl, hb⟩)
    · have hidle : s.phase = .idle := hp.resolve_left hinit
      cases ps with
      | nil => exact .inr (.inr (.inr (.inl ⟨hidle, e, hb, rest, rfl⟩)))
      | cons p ps => exact .inr (.inr (.inl ⟨hidle, e, p :: ps, rest, rfl, Nat.le_add_left 1 _, hn, hb⟩))
  | illegal as ws _ _ why rest _ => exact absurd rfl hmove
  | incomplete as ws _ _ _ => exact absurd rfl hmove
  | enc as _ hp _ ht =>
    rcases encStep_phase ht with e | ⟨hk, hlast, hroom, e⟩ | ⟨hk, hlast, hfull, e, hout⟩
    · exact absurd e hmove
    · exact .inr (.inr (.inr (.inr (.inl ⟨hp, e, hk, hlast, hroom⟩))))
    · exact .inr (.inr (.inr (.inr (.inr (.inl ⟨hp, e, hk, hlast, hfull, hout⟩)))))
  | off as _ hp _ ht =>
    rcases offStep_phase ht with e | ⟨hwp, e, hout⟩
    · exact absurd e hmove
    · exact .inr (.inr (.inr (.inr (.inr (.inr (.inl ⟨hp, e, hwp, hout⟩))))))

end Sys2Proof.Machine
end

section
/-! PROOFS. `SETBRT` (43_setbrt.md R120): the next state of the command before the first `INIT` and after it. -/

namespace Sys2Proof.Machine

/-- Settles O25: the fault before the first `INIT`, whose `ERR` bit is the word 2, and else the write of `BRT`. -/
theorem setbrtWritesBrightnessAndNothingElse : Obligations.SetbrtWritesBrightnessAndNothingElse :=
  fun _ _ => ⟨fun hidle => execSetbrt_of_ne (by simp [hidle]), fun huninit => execSetbrt_of_uninit huninit⟩

end Sys2Proof.Machine
end

section
/-! PROOFS. Faults and the transmit that hangs (60_exceptions.md): an illegal command (R132), the conditions of the commands'
faults and their order (R133 to R135, R138), what a fault does (R136), what `ERR` says of a run (R137), and `TxDone`, which may
never come (R145, R146). -/

namespace Sys2Proof.Machine

/-! An illegal command (R55, R132). -/

theorem decodePixels_rest_of_illegal {n : Nat} {q rest : List Word} {why : Reject}
    (h : decodePixels n q = .illegal why rest) : rest = q.drop n := by
  unfold decodePixels at h
  split at h
  · cases h
  · split at h
    · cases h
    · cases h; rfl

/-- An `INIT` or `SETBRT` word that is refused is refused alone. -/
theorem byteCommand_rest_of_illegal {p : Prop} [Decidable p] {i : Instr} {r why : Reject} {q rest : List Word}
    (h : (if p then .instr i q else .illegal r q) = Decoded.illegal why rest) : rest = q := by
  split at h
  · cases h
  · cases h; rfl

/-- An illegal command is as many words long as its first word says (R55): one word, but for a `SHOW` with a bad pixel word. -/
theorem decode_rest_of_illegal {w : Word} {q rest : List Word} {why : Reject} (h : decode (w :: q) = .illegal why rest) :
    rest = (w :: q).drop (commandLength w) := by
  by_cases hcount : opField w = 0x03 ∧ zField w = 0
  · obtain ⟨hshow, hz⟩ := hcount
    rw [decode_show q hshow, if_pos hz] at h
    rw [commandLength, if_pos ⟨hshow, hz⟩, Nat.add_comm, List.drop_succ_cons]
    exact decodePixels_rest_of_illegal h
  · rw [commandLength, if_neg hcount, List.drop_succ_cons, List.drop_zero]
    by_cases hinit : opField w = 0x01
    · exact byteCommand_rest_of_illegal ((decode_init q hinit).symm.trans h)
    by_cases hset : opField w = 0x02
    · exact byteCommand_rest_of_illegal ((decode_setbrt q hset).symm.trans h)
    by_cases hshow : opField w = 0x03
    · rw [decode_show q hshow, if_neg fun hz => hcount ⟨hshow, hz⟩] at h
      cases h; rfl
    · cases (decode_undefined q hinit hset hshow).symm.trans h; rfl

theorem commandStep_of_illegal {s : State} {why : Reject} {rest : List Word} (h : decode s.stream = .illegal why rest) :
    commandStep s = .next (raiseFault .illegalCommand (consumeTo rest s)) := by
  rw [commandStep, h]

theorem Presented.step_of_illegal {s : State} {as : List Arrival} {ws rest : List Word} {why : Reject} (h : Presented s as ws)
    (hp : s.phase = .uninit ∨ s.phase = .idle) (hd : decode (s.rx ++ ws) = .illegal why rest) :
    step s = .next (raiseFault .illegalCommand { s with rx := [], cmdPort := rest, arrivals := as }) :=
  (h.step_eq hp).trans (commandStep_of_illegal hd)

/-- Settles O7: the fault entry of `Presented.step_of_illegal`, whose `ERR` bit is the word 1, and the decoder's rest. -/
theorem illegalWordsAreConsumedAndReported : Obligations.IllegalWordsAreConsumedAndReported := by
  refine ⟨fun s why rest hp => ⟨fun ha hd => ?_, fun w as ha hd => (Presented.word w as ha).step_of_illegal hp hd⟩,
    fun _ _ _ _ => decode_rest_of_illegal, rfl⟩
  rw [(Presented.none ha).step_of_illegal hp hd, ← ha]
  rfl

/-! The order of the faults (R138). -/

/-- Without a `Reset` or a `TxDone` to take, the encoder finds words presented. -/
theorem exists_presented {s : State} (hreset : s.arrivals.head? ≠ some .reset) (hdone : s.arrivals.head? ≠ some .txDone) :
    ∃ ws, Presented s s.arrivals.tail ws := by
  rcases ha : s.arrivals with _ | ⟨a, as⟩
  · exact ⟨_, .none ha⟩
  · cases a with
    | reset => simp [ha] at hreset
    | txDone => simp [ha] at hdone
    | word w => exact ⟨_, .word w as ha⟩
    | quiet => exact ⟨_, .quiet as ha⟩

theorem ne_uninit_of_idle {s : State} (h : s.phase = .idle) : s.phase ≠ .uninit := by simp [h]

/-- Settles O21, one equation of the decoder's step or of a command for each entry of the order. -/
theorem faultsAreReportedInPriorityOrder : Obligations.FaultsAreReportedInPriorityOrder := by
  refine ⟨fun s why rest hp hreset hdone hd => ?_, fun _ _ => execShow_of_uninit, fun _ _ => execSetbrt_of_uninit,
    fun _ _ hp => execShow_of_tooMany (ne_uninit_of_idle hp),
    fun _ _ hp hn hb => execShow_of_tooBright (ne_uninit_of_idle hp) hn (usableBrightness_eq_none.2 hb),
    fun s _ _ => exec_init_of_tooBright s⟩
  obtain ⟨ws, hws⟩ := exists_presented hreset hdone
  exact hws.step_of_illegal hp (hws.wordsSeen_eq ▸ hd)

/-! What is reported, and `ERR` (R136). -/

/-- Of the bits of `ERR` a fault sets the one of its code less one. -/
theorem setErr_getLsbD (e : BitVec 4) (c : FaultCause) {j : Nat} (hj : j < 4) :
    (setErr e c).getLsbD j = (e.getLsbD j || decide (j + 1 = c.code)) := by
  have hcode : 1 ≤ c.code := by cases c <;> decide
  have hbit : j = c.code - 1 ↔ j + 1 = c.code := by omega
  simp [setErr, errBit, hj, hbit]

/-- From `s` to `t` no fault is reported, and `ERR` is as it was. -/
structure ReportsNoFault (s t : State) : Prop where
  err : t.err = s.err
  outputs : ∃ os, t.outputs = s.outputs ++ os ∧ ∀ c, Output.resp (.failed c) ∉ os

theorem ReportsNoFault.of_silent {s t : State} (he : t.err = s.err) (ho : t.outputs = s.outputs) : ReportsNoFault s t :=
  ⟨he, [], by simp [ho], by simp⟩

theorem ReportsNoFault.of_event {s t : State} {o : Output} (he : t.err = s.err) (ho : t.outputs = s.outputs ++ [o])
    (hok : ∀ c, Output.resp (.failed c) ≠ o) : ReportsNoFault s t :=
  ⟨he, [o], ho, fun c hc => hok c (List.mem_singleton.1 hc)⟩

theorem ReportsNoFault.ne_report {s t : State} (h : ReportsNoFault s t) (c : FaultCause) :
    t.outputs ≠ s.outputs ++ [.resp (.failed c)] := by
  obtain ⟨os, ho, hok⟩ := h.outputs
  rw [ho]
  intro he
  exact hok c (by simp [List.append_cancel_left he])

theorem ReportsNoFault.mem_before {s t : State} (h : ReportsNoFault s t) {c : FaultCause}
    (hc : .resp (.failed c) ∈ t.outputs) : .resp (.failed c) ∈ s.outputs := by
  obtain ⟨os, ho, hok⟩ := h.outputs
  rw [ho, List.mem_append] at hc
  exact hc.resolve_right (hok c)

/-- Of the state before, `ERR` and the outputs alone count. -/
theorem ReportsNoFault.of_before {s s' t : State} (h : ReportsNoFault s' t) (he : s'.err = s.err)
    (ho : s'.outputs = s.outputs) : ReportsNoFault s t :=
  ⟨h.err.trans he, ho ▸ h.outputs⟩

theorem handOver_reportsNoFault (s : State) : ReportsNoFault s (handOver s) := .of_event rfl (handOver_outputs s) nofun

theorem showBody_reportsNoFault (b : Brightness) (ps : List Pixel) (s : State) : ReportsNoFault s (showBody b ps s) := by
  cases hlevel : s.cfg.level with
  | command => exact .of_event (showBody_err ..) (showBody_handsOver_of_command hlevel).1 nofun
  | slot => rw [showBody_of_slot hlevel]; exact .of_silent rfl rfl

theorem takeTxDone_reportsNoFault (s : State) : ReportsNoFault s (takeTxDone s) := by
  by_cases hp : s.phase = .tx
  · rw [takeTxDone_of_tx hp]; exact .of_event rfl (respondOk_outputs _) nofun
  · rw [takeTxDone_of_ne_tx hp]; exact .of_silent rfl rfl

theorem encStep_reportsNoFault {s t : State} (h : encStep s = .next t) : ReportsNoFault s t := by
  obtain ⟨_, sc, _, rfl⟩ := encStep_cases h
  rcases encAdvance_cases (storeAtWp (lookup s.cfg (slotOfScaled sc s.k)) { s with sc := sc }) with
    ⟨_, e⟩ | ⟨_, _, _, e⟩ | ⟨_, _, _, e⟩ | ⟨_, _, e⟩ <;> rw [e]
  · exact .of_silent rfl rfl
  · exact .of_silent rfl rfl
  · exact (handOver_reportsNoFault _).of_before rfl rfl
  · exact .of_silent rfl rfl

theorem offStep_reportsNoFault {s t : State} (h : offStep s = .next t) : ReportsNoFault s t := by
  obtain ⟨_, rfl⟩ := offStep_cases h
  rcases offAdvance_cases (storeAtWp (offSymbol s.cfg) s) with ⟨_, e⟩ | ⟨_, e⟩ <;> rw [e]
  · exact (handOver_reportsNoFault _).of_before rfl rfl
  · exact .of_silent rfl rfl

/-- A command reports no fault, or is the entry of one from the unchanged state. -/
theorem exec_reports {i : Instr} {s t : State} (h : exec i s = .next t) :
    ReportsNoFault s t ∨ ∃ c, t = raiseFault c s := by
  rcases exec_cases h with ⟨c, _, rfl⟩ | ⟨v, _, _, rfl⟩ | ⟨b, u, _, _, rfl⟩ | ⟨ps, b, _, _, _, _, rfl⟩
  · exact .inr ⟨c, rfl⟩
  · exact .inl (.of_event rfl (respondOk_outputs _) nofun)
  · exact .inl ((showBody_reportsNoFault u [] (initCleared b s)).of_before rfl rfl)
  · exact .inl (showBody_reportsNoFault b ps s)

/-- From `s` to `t` the fault `c` is reported and its `ERR` bit set. -/
structure ReportsFault (c : FaultCause) (s t : State) : Prop where
  err : t.err = setErr s.err c
  outputs : t.outputs = s.outputs ++ [.resp (.failed c)]

/-- A step without a `Reset` reports no fault, or one, and then from `UNINIT` or `IDLE`. -/
theorem step_reports {s t : State} (h : step s = .next t) (hreset : s.arrivals.head? ≠ some .reset) :
    ReportsNoFault s t ∨ (s.phase = .uninit ∨ s.phase = .idle) ∧ ∃ c, ReportsFault c s t := by
  cases step_cases h with
  | reset as ha => simp [ha] at hreset
  | txDone as _ => exact .inl ((takeTxDone_reportsNoFault _).of_before rfl rfl)
  | held as ws _ _ => exact .inl (.of_silent rfl rfl)
  | command as ws _ hp i rest _ _ ht =>
    rcases exec_reports ht with hno | ⟨c, rfl⟩
    · exact .inl (hno.of_before rfl rfl)
    · exact .inr ⟨hp, c, rfl, rfl⟩
  | illegal as ws _ hp why rest _ => exact .inr ⟨hp, .illegalCommand, rfl, rfl⟩
  | incomplete as ws _ _ _ => exact .inl (.of_silent rfl rfl)
  | enc as _ _ _ ht => exact .inl ((encStep_reportsNoFault ht).of_before rfl rfl)
  | off as _ _ _ ht => exact .inl ((offStep_reportsNoFault ht).of_before rfl rfl)

/-- Settles O20: a block that takes words is not busy, so a busy step reports no fault. -/
theorem faultEntrySetsOneBitAndResponds : Obligations.FaultEntrySetsOneBitAndResponds := by
  refine ⟨fun c s => ⟨fun _ => setErr_getLsbD s.err c, rfl, rfl⟩, fun s t hbusy hreset h => ?_, rfl, rfl, rfl, rfl, rfl⟩
  rcases step_reports h hreset with hno | ⟨hp, _⟩
  · exact ⟨hno.err, hno.ne_report⟩
  · exact absurd hbusy (not_busy_of_accepting hp)

/-! The conditions of the commands' faults (R133 to R135). -/

theorem eq_of_raiseFault_outputs {c c' : FaultCause} {s : State}
    (h : (raiseFault c' s).outputs = s.outputs ++ [.resp (.failed c)]) : c = c' := by
  simpa using h.symm

theorem execInit_fault {b : Byte} {s t : State} {c : FaultCause} (h : execInit b s = .next t)
    (hout : t.outputs = s.outputs ++ [.resp (.failed c)]) : c = .brightnessRange ∧ 100 < b.toNat := by
  cases hu : usableBrightness b with
  | none =>
    cases (execInit_of_none hu).symm.trans h
    exact ⟨eq_of_raiseFault_outputs hout, usableBrightness_eq_none.1 hu⟩
  | some u =>
    cases (execInit_of_usable hu).symm.trans h
    exact absurd hout (((showBody_reportsNoFault u [] (initCleared b s)).of_before rfl rfl).ne_report c)

theorem execSetbrt_fault {v : Byte} {s t : State} {c : FaultCause} (h : execSetbrt v s = .next t)
    (hout : t.outputs = s.outputs ++ [.resp (.failed c)]) : c = .notInitialized ∧ s.phase = .uninit := by
  by_cases hp : s.phase = .uninit
  · cases (execSetbrt_of_uninit hp).symm.trans h
    exact ⟨eq_of_raiseFault_outputs hout, hp⟩
  · cases (execSetbrt_of_ne hp).symm.trans h
    simp at hout

/-- The three faults of `SHOW`, each on the condition that those before it in the order do not hold. -/
theorem execShow_fault {ps : List Pixel} {s t : State} {c : FaultCause} (h : execShow ps s = .next t)
    (hout : t.outputs = s.outputs ++ [.resp (.failed c)]) :
    (c = .notInitialized ∧ s.phase = .uninit) ∨
    (c = .invalidArgument ∧ s.phase ≠ .uninit ∧ s.cfg.ledCount < ps.length) ∨
    (c = .brightnessRange ∧ s.phase ≠ .uninit ∧ ps.length ≤ s.cfg.ledCount ∧ 100 < s.brt.toNat) := by
  by_cases hp : s.phase = .uninit
  · cases (execShow_of_uninit hp).symm.trans h
    exact .inl ⟨eq_of_raiseFault_outputs hout, hp⟩
  by_cases hn : s.cfg.ledCount < ps.length
  · cases (execShow_of_tooMany hp hn).symm.trans h
    exact .inr (.inl ⟨eq_of_raiseFault_outputs hout, hp, hn⟩)
  have hle := Nat.not_lt.1 hn
  cases hb : usableBrightness s.brt with
  | none =>
    cases (execShow_of_tooBright hp hle hb).symm.trans h
    exact .inr (.inr ⟨eq_of_raiseFault_outputs hout, hp, hle, usableBrightness_eq_none.1 hb⟩)
  | some b =>
    cases (execShow_of_fill hp hle hb).symm.trans h
    exact absurd hout ((showBody_reportsNoFault b ps s).ne_report c)

/-- Settles O22, command by command. -/
theorem commandsFaultOnNoOtherCondition : Obligations.CommandsFaultOnNoOtherCondition := by
  intro i s t c hp h hout
  cases i with
  | init b =>
    obtain ⟨hc, hb⟩ := execInit_fault h hout
    exact .inr (.inr (.inr (.inr ⟨b, rfl, hc, hb⟩)))
  | setbrt v =>
    obtain ⟨hc, hinit⟩ := execSetbrt_fault h hout
    exact .inr (.inl ⟨v, rfl, hc, hinit⟩)
  | showPixels ps =>
    rcases execShow_fault h hout with ⟨hc, hinit⟩ | ⟨hc, hinit, hn⟩ | ⟨hc, hinit, hn, hb⟩
    · exact .inl ⟨ps, rfl, hc, hinit⟩
    · exact .inr (.inr (.inl ⟨ps, rfl, hc, hp.resolve_left hinit, hn⟩))
    · exact .inr (.inr (.inr (.inl ⟨ps, rfl, hc, hp.resolve_left hinit, hn, hb⟩)))

/-! What `ERR` says of a run (R137). -/

@[simp] theorem showBody_arrivals (b : Brightness) (ps : List Pixel) (s : State) :
    (showBody b ps s).arrivals = s.arrivals := by
  unfold showBody; split <;> rfl

@[simp] theorem takeTxDone_arrivals (s : State) : (takeTxDone s).arrivals = s.arrivals := by
  unfold takeTxDone; split <;> rfl

theorem exec_arrivals {i : Instr} {s t : State} (h : exec i s = .next t) : t.arrivals = s.arrivals := by
  rcases exec_cases h with ⟨c, _, rfl⟩ | ⟨v, _, _, rfl⟩ | ⟨b, u, _, _, rfl⟩ | ⟨ps, b, _, _, _, _, rfl⟩ <;> simp

theorem Presented.arrivals_eq {s : State} {as : List Arrival} {ws : List Word} (h : Presented s as ws) :
    as = s.arrivals.tail := by
  cases h with
  | none h => simp [h]
  | quiet as h => simp [h]
  | word w as h => simp [h]

theorem tail_of_own_move {s : State} {as : List Arrival} (h : s.arrivals = [] ∧ as = [] ∨ s.arrivals = .quiet :: as) :
    as = s.arrivals.tail := by
  rcases h with ⟨h, rfl⟩ | h <;> simp [h]

/-- A step makes one move of the outside world, if there is one to come (R8). -/
theorem step_arrivals {s t : State} (h : step s = .next t) : t.arrivals = s.arrivals.tail := by
  cases step_cases h with
  | reset as ha => simp [ha]
  | txDone as ha => simp [ha]
  | held as ws hq _ => exact hq.arrivals_eq
  | command as ws hq _ i rest _ _ ht => exact (exec_arrivals ht).trans hq.arrivals_eq
  | illegal as ws hq _ why rest _ => exact hq.arrivals_eq
  | incomplete as ws hq _ _ => exact hq.arrivals_eq
  | enc as ha _ _ ht =>
    obtain ⟨_, sc, _, rfl⟩ := encStep_cases ht
    exact (encAdvance_arrivals _).trans (tail_of_own_move ha)
  | off as ha _ _ ht =>
    obtain ⟨_, rfl⟩ := offStep_cases ht
    exact (offAdvance_arrivals _).trans (tail_of_own_move ha)

/-- No `Reset` is to come, and each fault reported so far has its `ERR` bit set. -/
structure ReportsRecorded (s : State) : Prop where
  noReset : .reset ∉ s.arrivals
  recorded : ∀ f : FaultCause, .resp (.failed f) ∈ s.outputs → s.err.getLsbD (f.code - 1) = true

theorem ReportsRecorded.after_step {s t : State} (hs : ReportsRecorded s) (h : step s = .next t) : ReportsRecorded t := by
  have hreset : s.arrivals.head? ≠ some .reset := fun hhead => hs.noReset (List.mem_of_mem_head? hhead)
  refine ⟨fun hmem => hs.noReset (List.mem_of_mem_tail (step_arrivals h ▸ hmem)), fun f hf => ?_⟩
  rcases step_reports h hreset with hno | ⟨_, c, hc⟩
  · rw [hno.err]
    exact hs.recorded f (hno.mem_before hf)
  · rw [hc.outputs, List.mem_append, List.mem_singleton] at hf
    rcases hf with hf | hf
    · exact step_err_mono h hreset (hs.recorded f hf)
    · cases hf
      rw [hc.err]
      exact setErr_getLsbD_code s.err f

/-- Settles O24: reset has reported nothing, and `ReportsRecorded` is kept by every step. -/
theorem errZeroMeansNoFaultWasReported : Obligations.ErrZeroMeansNoFaultWasReported := by
  intro c script k t hscript h
  have hstart : ReportsRecorded (State.started c script) := ⟨hscript, nofun⟩
  obtain ⟨_, hrecorded⟩ := run_invariant (fun _ _ => ReportsRecorded.after_step) k hstart h
  refine ⟨hrecorded, fun hzero f hf => ?_⟩
  have hbit := hrecorded f hf
  rw [show t.err = 0 from hzero] at hbit
  simp at hbit

/-! `TxDone`, and the transmit it never comes to (R145, R146). -/

theorem step_of_txDone {s : State} {as : List Arrival} (h : s.arrivals = .txDone :: as) :
    step s = .next (takeTxDone { s with arrivals := as }) := step_eq_arrive h

/-- Settles O16. -/
theorem txDoneEndsTheWaitOrIsIgnored : Obligations.TxDoneEndsTheWaitOrIsIgnored := fun s as ha =>
  ⟨fun hp => (step_of_txDone ha).trans (congrArg _ (takeTxDone_of_tx (s := { s with arrivals := as }) hp)),
    fun hp => (step_of_txDone ha).trans (congrArg _ (takeTxDone_of_ne_tx (s := { s with arrivals := as }) hp))⟩

/-- In `TX` the encoder has no step of its own (R106). -/
theorem step_idles_of_tx {s : State} (hp : s.phase = .tx) (ha : s.arrivals = []) : step s = .next s := by
  rw [step_eq_encoderStep ha, encoderStep, hp]

theorem run_of_step_self {s : State} (h : step s = .next s) (k : Nat) : core.run k s = .next s := by
  induction k with
  | zero => exact run_zero s
  | succ k ih => rw [run_of_next h, ih]

/-- Any number of steps in `TX` without an answer takes as many moves, or all there are, and holds their words (R146). -/
theorem run_unanswered_of_tx {s : State} (k : Nat) (hp : s.phase = .tx) (hno : NoAnswer s.arrivals) :
    core.run k s = .next { s with
      arrivals := s.arrivals.drop k, cmdPort := s.cmdPort ++ wordsOf (s.arrivals.take k) } := by
  have hwait := run_waits_of_tx hp (List.take_append_drop k s.arrivals).symm fun a ha => hno a (List.mem_of_mem_take ha)
  rw [List.length_take] at hwait
  rcases Nat.le_total k s.arrivals.length with hle | hle
  · rwa [Nat.min_eq_left hle] at hwait
  · rw [Nat.min_eq_right hle] at hwait
    obtain ⟨j, hj⟩ := Nat.exists_eq_add_of_le hle
    have hrest := run_add _ j hwait
    rw [← hj] at hrest
    rw [hrest]
    refine run_of_step_self (step_idles_of_tx ?_ (List.drop_eq_nil_of_le hle)) j
    exact hp

/-- Settles O17. -/
theorem unansweredTransmitWaitsForEver : Obligations.UnansweredTransmitWaitsForEver :=
  ⟨fun k s hp hno => ⟨_, run_unanswered_of_tx k hp hno, hp, s.busy_iff.2 (.inr (.inr hp)), rfl, rfl, rfl, rfl, rfl⟩,
    fun _ _ _ ha => ⟨_, step_of_reset ha, takeReset_phase _⟩⟩

end Sys2Proof.Machine
end

section
/-! PROOFS. Reset and hazards (70_reset_and_hazards.md): the way out of `UNINIT` (R162), words presented while busy (R165), and a
`SHOW` whose words have not all been presented (R166). -/

namespace Sys2Proof.Machine

/-! Out of `UNINIT` (R162). -/

/-- In `UNINIT` a command is refused with one response, or it is an `INIT` of a brightness in range. -/
theorem exec_of_uninit {i : Instr} {s t : State} (h : exec i s = .next t) (hp : s.phase = .uninit) :
    (∃ c, t = raiseFault c s) ∨ (∃ b, i = .init b ∧ b.toNat ≤ 100 ∧ t.brt = b) := by
  rcases exec_cases h with ⟨c, _, rfl⟩ | ⟨v, _, hinit, _⟩ | ⟨b, u, rfl, hu, rfl⟩ | ⟨ps, b, _, hinit, _⟩
  · exact .inl ⟨c, rfl⟩
  · exact absurd hp hinit
  · have hb : b.toNat ≤ 100 := by rw [usableBrightness_eq_some.1 hu]; omega
    exact .inr ⟨b, rfl, hb, by simp⟩
  · exact absurd hp hinit

/-- Settles O52, case by case over what a step can be. -/
theorem onlyInitLeavesUninit : Obligations.OnlyInitLeavesUninit := by
  intro s t hp h
  cases step_cases h with
  | reset as _ => exact .inl ⟨rfl, .inl rfl⟩
  | txDone as _ =>
    rw [takeTxDone_of_ne_tx (s := { s with arrivals := as }) (by simp [hp])]
    exact .inl ⟨hp, .inl rfl⟩
  | held as ws _ hb => simp [hp] at hb
  | command as ws hq _ i rest hd _ ht =>
    rcases exec_of_uninit ht hp with ⟨c, rfl⟩ | ⟨b, rfl, hb, hbrt⟩
    · exact .inl ⟨hp, .inr ⟨.failed c, rfl⟩⟩
    · exact .inr ⟨b, rest, hq.wordsSeen_eq.symm ▸ hd, hb, hbrt⟩
  | illegal as ws _ _ why rest _ => exact .inl ⟨hp, .inr ⟨.failed .illegalCommand, rfl⟩⟩
  | incomplete as ws _ _ _ => exact .inl ⟨hp, .inl rfl⟩
  | enc as _ hp' _ _ => simp [hp] at hp'
  | off as _ hp' _ _ => simp [hp] at hp'

/-! Words presented while busy (R165). -/

theorem takeWord_of_busy {s : State} (w : Word) (h : s.busy = true) :
    takeWord w s = .next { s with cmdPort := s.cmdPort ++ [w] } := by
  rcases s.busy_iff.1 h with hp | hp | hp <;> rw [takeWord, hp]

/-- From `s` to `t` no word is taken, none is dropped from the port, and `BRT` is as it was. -/
structure KeepsWords (s t : State) : Prop where
  rx : t.rx = s.rx
  brt : t.brt = s.brt
  cmdPort : ∃ ws, t.cmdPort = s.cmdPort ++ ws

theorem KeepsWords.of_eq {s t : State} (hrx : t.rx = s.rx) (hbrt : t.brt = s.brt) (hport : t.cmdPort = s.cmdPort) :
    KeepsWords s t :=
  ⟨hrx, hbrt, [], by rw [hport, List.append_nil]⟩

theorem Presented.keepsWords {s : State} {as : List Arrival} {ws : List Word} (h : Presented s as ws) :
    KeepsWords s (presented s as ws) := by
  rcases h.words_eq with rfl | ⟨w, _, rfl⟩
  · exact .of_eq rfl rfl rfl
  · exact ⟨rfl, rfl, [w], rfl⟩

/-- No step of a busy block but a `Reset` takes or drops a word or changes `BRT`. -/
theorem step_keepsWords_of_busy {s t : State} (hbusy : s.busy = true) (hreset : s.arrivals.head? ≠ some .reset)
    (h : step s = .next t) : KeepsWords s t := by
  cases step_cases h with
  | reset as ha => simp [ha] at hreset
  | txDone as _ => exact .of_eq (takeTxDone_rx _) (takeTxDone_brt _) (takeTxDone_cmdPort _)
  | held as ws hq _ => exact hq.keepsWords
  | command as ws _ hp i rest _ _ _ => exact absurd hbusy (not_busy_of_accepting hp)
  | illegal as ws _ hp why rest _ => exact absurd hbusy (not_busy_of_accepting hp)
  | incomplete as ws _ hp _ => exact absurd hbusy (not_busy_of_accepting hp)
  | enc as _ _ _ ht =>
    obtain ⟨_, sc, _, rfl⟩ := encStep_cases ht
    exact .of_eq (encAdvance_rx _) (encAdvance_brt _) (encAdvance_cmdPort _)
  | off as _ _ _ ht =>
    obtain ⟨_, rfl⟩ := offStep_cases ht
    exact .of_eq (offAdvance_rx _) (offAdvance_brt _) (offAdvance_cmdPort _)

/-- Settles O8: after the `TxDone` the block is in `IDLE` with the held words first on the port, so its step decodes them. -/
theorem wordsWaitWhileBusy : Obligations.WordsWaitWhileBusy := by
  refine ⟨fun s w as hbusy ha => ?_, fun s t hbusy hreset h => ?_, fun s i rest hp hrx hd ha => ?_⟩
  · exact (step_eq_arrive ha).trans (takeWord_of_busy w hbusy)
  · obtain ⟨hrx, hbrt, hport⟩ := step_keepsWords_of_busy hbusy hreset h
    exact ⟨hrx, hbrt, hport, fun hp => (bufferIsStableDuringTransmit s t hp hreset h).1⟩
  · have hdone := (step_of_txDone ha).trans (congrArg _ (takeTxDone_of_tx (s := { s with arrivals := [] }) hp))
    have hd' : decode (s.rx ++ s.cmdPort) = .instr i rest := by rwa [hrx, List.nil_append]
    exact ⟨_, hdone, rfl, (Presented.none rfl).step_of_instr (.inr rfl) hd'⟩

/-! A `SHOW` short of words (R166). -/

section
variable {w : Word} {q : List Word} (hop : opField w = 0x03) (hz : zField w = 0)
include hop hz

theorem decode_show_of_short (h : q.length < countField w) : decode (w :: q) = .incomplete := by
  rw [decode_show q hop, if_pos hz, decodePixels_of_short h]

theorem decode_show_of_legal (h : q.length = countField w) (hok : ∀ x ∈ q, opField x = 0) :
    decode (w :: q) = .instr (.showPixels (q.map pixelOfWord)) [] := by
  have hok' : ∀ x ∈ q.take q.length, x.toNat / 2 ^ 24 = 0 := by
    rw [List.take_length]
    exact fun x hx => (opField_eq_iff (n := 0) (by decide)).1 (hok x hx)
  rw [decode_show q hop, if_pos hz, ← h, decodePixels_of_legal le_rfl hok', List.take_length, List.drop_length]

theorem decode_show_of_bad (h : q.length = countField w) (hbad : ∃ x ∈ q, opField x ≠ 0) :
    decode (w :: q) = .illegal .pixelTopByteNotZero [] := by
  obtain ⟨x, hx, hne⟩ := hbad
  have hbad' : ∃ x ∈ q.take q.length, x.toNat / 2 ^ 24 ≠ 0 := by
    rw [List.take_length]
    exact ⟨x, hx, mt (opField_eq_iff (n := 0) (by decide)).2 hne⟩
  rw [decode_show q hop, if_pos hz, ← h, decodePixels_of_bad le_rfl hbad', List.drop_length]

end

/-- The block with the words `ws` of a command taken, none on the port, and the moves `as` to come. -/
def holding (ws : List Word) (as : List Arrival) (s : State) : State := { s with rx := ws, cmdPort := [], arrivals := as }

theorem commandStep_of_incomplete {s : State} (h : decode s.stream = .incomplete) :
    commandStep s = .next { s with rx := s.stream, cmdPort := [] } := by
  rw [commandStep, h]

theorem Presented.step_of_incomplete {s : State} {as : List Arrival} {ws : List Word} (h : Presented s as ws)
    (hp : s.phase = .uninit ∨ s.phase = .idle) (hd : decode (s.rx ++ ws) = .incomplete) :
    step s = .next (holding (s.rx ++ ws) as s) :=
  (h.step_eq hp).trans (commandStep_of_incomplete hd)

/-- Where the words held begin no complete command, a step with nothing to come changes nothing. -/
theorem step_holding_of_incomplete {s : State} {ws : List Word} (hp : s.phase = .uninit ∨ s.phase = .idle)
    (hd : decode ws = .incomplete) : step (holding ws [] s) = .next (holding ws [] s) := by
  have hstep := (Presented.none rfl : Presented (holding ws [] s) [] []).step_of_incomplete hp
    (by rwa [holding, List.append_nil])
  rwa [holding, List.append_nil] at hstep

/-- Words that arrive for a `SHOW` and do not complete it are taken one a step. -/
theorem run_holds_words {w : Word} {q pre : List Word} {s : State} (post : List Arrival)
    (hp : s.phase = .uninit ∨ s.phase = .idle) (hop : opField w = 0x03) (hz : zField w = 0)
    (h : q.length + pre.length < countField w) :
    core.run pre.length (holding (w :: q) (pre.map .word ++ post) s) = .next (holding (w :: (q ++ pre)) post s) := by
  induction pre generalizing q with
  | nil => rw [List.append_nil]; exact run_zero _
  | cons x pre ih =>
    rw [List.length_cons] at h ⊢
    have hlen : (q ++ [x]).length + pre.length < countField w := by rw [List.length_append, List.length_singleton]; omega
    have hstep : step (holding (w :: q) (.word x :: (pre.map .word ++ post)) s) =
        .next (holding (w :: (q ++ [x])) (pre.map .word ++ post) s) :=
      (Presented.word x _ rfl).step_of_incomplete hp (decode_show_of_short (q := q ++ [x]) hop hz (by omega))
    rw [List.map_cons, List.cons_append, run_of_next hstep, ih hlen, List.append_assoc, List.singleton_append]

/-- Settles O9: the step that takes the words presented, then one for each word to come, the last of which decodes them all. -/
theorem incompleteShowWaitsForItsWords : Obligations.IncompleteShowWaitsForItsWords := by
  intro s w q hp hop hz hshort hrx hport
  have hd := decode_show_of_short hop hz hshort
  have htake {as : List Arrival} (h : Presented s as s.cmdPort) : step s = .next (holding (w :: q) as s) := by
    have hstep := h.step_of_incomplete hp (by rwa [hrx, hport])
    rwa [hrx, hport] at hstep
  refine ⟨fun ha k => ?_, fun more ha hlen => ?_, fun as ha => ?_⟩
  · rw [run_of_next (htake (.none ha)), run_of_step_self (step_holding_of_incomplete hp hd), holding, ← ha]
  · obtain rfl | ⟨pre, x, rfl⟩ := more.eq_nil_or_concat'
    · rw [List.length_nil] at hlen
      omega
    have hpre : q.length + pre.length < countField w := by rw [List.length_append, List.length_singleton] at hlen; omega
    have hrun : core.run ((pre ++ [x]).length + 1) s = core.run 1 (holding (w :: (q ++ pre)) [.word x] s) := by
      rw [run_of_next (htake (.quiet _ ha)), List.length_append, List.length_singleton, List.map_append]
      exact run_add _ 1 (run_holds_words _ hp hop hz hpre)
    have hlast : Presented (holding (w :: (q ++ pre)) [.word x] s) [] [x] := .word x [] rfl
    have hall : (q ++ pre ++ [x]).length = countField w := by rwa [List.append_assoc, List.length_append]
    rw [hrun, ← List.append_assoc]
    refine ⟨fun hok => ?_, fun hbad => ?_⟩
    · exact run_one_of_exec (hlast.step_of_instr hp (decode_show_of_legal hop hz hall hok))
    · exact (run_of_next (hlast.step_of_illegal hp (decode_show_of_bad hop hz hall hbad))).trans (run_zero _)
  · have hreset := step_of_reset (s := holding (w :: q) (.reset :: as) s) rfl
    exact ⟨_, ((run_of_next (htake (.quiet _ ha))).trans (run_of_next hreset)).trans (run_zero _), rfl, rfl, rfl, rfl⟩

end Sys2Proof.Machine
end

section
/-! PROOFS. What the model adds to the spec, and a `Reset` in any phase: a placed word of the opcode table runs next (log 9), the
buffer's list keeps its canonical form (R13), and a `Reset` abandons whatever runs (R160). -/

namespace Sys2Proof.Machine

/-! A placed table word (log 9). -/

theorem Phase.accepting_eq (p : Phase) : p.accepting = if p = .uninit then .uninit else .idle := by cases p <;> rfl

/-- A placed block takes words, whatever it was doing before. -/
theorem presentWords_accepts (ws : List Word) (s : State) :
    (presentWords ws s).phase = .uninit ∨ (presentWords ws s).phase = .idle := by
  rw [presentWords_phase, Phase.accepting_eq]
  exact ite_eq_or_eq ..

/-- The table's words are as many as the first of them says. -/
theorem tableWords_length (nbits w : Nat) :
    ∃ x q, tableWords nbits w = x :: q ∧ (tableWords nbits w).length = commandLength x - 1 + 1 := by
  refine ⟨BitVec.ofNat 32 (w % 2 ^ nbits), _, rfl, ?_⟩
  rw [tableWords_eq_map, List.length_map, List.length_range]

/-- A command read from the table's words leaves none over: its encoding and they share the first word, which gives both
their length. -/
theorem rest_eq_nil_of_decode_tableWords {nbits w : Nat} {i : Instr} {rest : List Word}
    (h : decode (tableWords nbits w) = .instr i rest) : rest = [] := by
  obtain ⟨x, q, hcut, hlen⟩ := tableWords_length nbits w
  rw [hcut] at h hlen
  obtain ⟨hi, hwords⟩ := decode_eq_instr h
  obtain ⟨y, p, hencode, hlen'⟩ := encode_length_eq_commandLength hi
  rw [hencode, List.cons_append] at hwords
  obtain ⟨rfl, rfl⟩ := List.cons.inj hwords
  refine List.eq_nil_of_length_eq_zero ?_
  rw [hencode, List.length_cons] at hlen'
  rw [List.length_cons, List.length_append] at hlen
  omega

theorem decode_tableWords {nbits w : Nat} {i : Instr} (h : decodeTableWord nbits w = some i) :
    decode (tableWords nbits w) = .instr i [] := by
  unfold decodeTableWord at h
  split at h
  · next j rest hd =>
    obtain rfl := Option.some.inj h
    rwa [rest_eq_nil_of_decode_tableWords hd] at hd
  · cases h
  · cases h

/-- Settles O10: the placed words decode to the command with none left over, and the block they are placed in takes them. -/
theorem placedTableWordRunsNext : Obligations.PlacedTableWordRunsNext := by
  intro s nbits w i h
  have hstep := (Presented.none rfl : Presented (s.withFetchWord nbits w) [] _).step_of_instr (presentWords_accepts _ s)
    (decode_tableWords h)
  rw [← Phase.accepting_eq]
  exact hstep

/-! A `Reset` in any phase (R160). -/

/-- Settles O13: the state after the `Reset` is `takeReset`'s, in `UNINIT`, where a `TxDone` is ignored and words are taken. -/
theorem resetAbandonsWhateverRuns : Obligations.ResetAbandonsWhateverRuns := by
  intro s as ha
  refine ⟨_, step_of_reset ha, rfl, rfl, rfl, Memory.read_nil, rfl, rfl, rfl, rfl, rfl, fun bs hdone => ?_,
    fun w bs i rest hword hd => ?_⟩
  · exact (step_of_txDone hdone).trans (congrArg _ (takeTxDone_of_ne_tx nofun))
  · exact (Presented.word w bs hword).step_of_instr (.inl rfl) hd

/-! The canonical form of the buffer (R13). -/

theorem showBody_buf_wf {s : State} (b : Brightness) (ps : List Pixel) (h : s.buf.wf) : (showBody b ps s).buf.wf := by
  cases hlevel : s.cfg.level with
  | command => rw [showBody_of_command hlevel]; exact fill_wf h
  | slot => rw [showBody_of_slot hlevel]; exact h

theorem exec_buf_wf {i : Instr} {s t : State} (hwf : s.buf.wf) (h : exec i s = .next t) : t.buf.wf := by
  rcases exec_cases h with ⟨c, _, rfl⟩ | ⟨v, _, _, rfl⟩ | ⟨b, u, _, _, rfl⟩ | ⟨ps, b, _, _, _, _, rfl⟩
  · exact hwf
  · exact hwf
  · exact showBody_buf_wf u [] (bufClear_wf hwf)
  · exact showBody_buf_wf b ps hwf

/-- Settles O45: a `Reset` leaves an empty list; a command and a slot's store write by operations that keep the form; no other
step writes the buffer. -/
theorem stepKeepsTheBufferCanonical : Obligations.StepKeepsTheBufferCanonical := by
  intro s t hwf h
  cases step_cases h with
  | reset as _ => exact List.Pairwise.nil
  | txDone as _ => rw [takeTxDone_buf]; exact hwf
  | held as ws _ _ => exact hwf
  | command as ws _ _ i rest _ _ ht => exact exec_buf_wf (s := consumeTo rest (presented s as ws)) hwf ht
  | illegal as ws _ _ why rest _ => exact hwf
  | incomplete as ws _ _ _ => exact hwf
  | enc as _ _ _ ht =>
    obtain ⟨_, sc, _, rfl⟩ := encStep_cases ht
    rw [encAdvance_buf]
    exact symStore_wf _ _ hwf
  | off as _ _ _ ht =>
    obtain ⟨_, rfl⟩ := offStep_cases ht
    rw [offAdvance_buf]
    exact symStore_wf _ _ hwf

end Sys2Proof.Machine
end
